-- ==== Sys2Proof/Word.lean ====
section
/-! DEFINITION. The word types of LSA and the two index shapes its rules use: three channels, seven bands. -/

namespace Sys2Proof

/-- A binary32 datum, one 32-bit word (R60). Registers and temporaries are words, never accessed in parts (R32). -/
abbrev F32 := BitVec 32

/-- One band sample, an unsigned 10-bit integer, 0..1023 (R44, R75). -/
abbrev Sample := BitVec 10

/-- One output register, an unsigned 8-bit integer (R12, R50). -/
abbrev OutByte := BitVec 8

/-- One command word of the single format F72 (R42). -/
abbrev CmdWord := BitVec 72

/-- The channel index `c` in 0..2: 0 Red, 1 Green, 2 Blue (R5). -/
inductive ChanId where
  | red
  | green
  | blue
deriving DecidableEq, Repr

/-- One value per channel, in the order (Red, Green, Blue) of R5. -/
structure Rgb (α : Type) where
  red : α
  green : α
  blue : α
deriving DecidableEq, Repr

/-- Select channel `c`'s value. -/
def Rgb.get {α : Type} (v : Rgb α) : ChanId → α
  | .red => v.red
  | .green => v.green
  | .blue => v.blue

/-- One value per band, band 0 first (R5, R44). -/
structure Bands (α : Type) where
  b0 : α
  b1 : α
  b2 : α
  b3 : α
  b4 : α
  b5 : α
  b6 : α
deriving DecidableEq, Repr

/-- The seven values in ascending band order. -/
def Bands.toList {α : Type} (v : Bands α) : List α :=
  [v.b0, v.b1, v.b2, v.b3, v.b4, v.b5, v.b6]

/-- Apply a function to each band's value. -/
def Bands.map {α β : Type} (f : α → β) (v : Bands α) : Bands β :=
  { b0 := f v.b0, b1 := f v.b1, b2 := f v.b2, b3 := f v.b3, b4 := f v.b4, b5 := f v.b5, b6 := f v.b6 }

/-- A frame: an ordered 7-tuple of samples, band 0 first (R44). -/
abbrev Frame := Bands Sample

end Sys2Proof
end

