-- ==== Sys2Proof/Syntax.lean ====
section
/-! DEFINITION. The commands of LSA-C 1.0, one constructor per row of the opcode table (R43), and the assembler's
notation for them (R48, R49). -/

namespace Sys2Proof

/-- The commands (R43). An operand is a 10-bit sample, so a frame of another length or with a sample above 1023
cannot be written (R44, R157). The ignored frame field of `NOP`, `RST` and reserved words is no operand
(R45, 93_implementation_defined.md U2). -/
inductive Instr where
  /-- `NOP`, opcode 0 (R140). -/
  | nop
  /-- `PROC s0, …, s6`, opcode 1 (R142). -/
  | proc (s0 s1 s2 s3 s4 s5 s6 : Sample)
  /-- `RST`, opcode 2 (R143). -/
  | rst
  /-- The reserved opcode 3, the opcode table's row RSVD3 (R144). -/
  | rsvd3
deriving DecidableEq, Repr

/-- One line of assembly that stands for a command (R48); operands are any naturals, checked when assembled. -/
inductive AsmCmd where
  | nop
  | rst
  | proc (operands : List Nat)
deriving DecidableEq, Repr

/-- One item of an assembly text: a command line or a `.rep N` … `.endr` block (R49). The body of a block is
command lines only, so blocks do not nest. -/
inductive AsmItem where
  | cmd (c : AsmCmd)
  | rep (n : Nat) (body : List AsmCmd)
deriving DecidableEq, Repr

end Sys2Proof
end

