-- ==== Sys2Proof/WellFormed.lean ====
section
/-! DEFINITION. Well-formedness: the commands a correct host may send, and the assembly lines that have a word.

Sample widths need no check: an operand of `Instr.proc` is ten bits wide by its type (R44). -/

namespace Sys2Proof

/-- A correct host "sends only `NOP`, `PROC`, `RST` words" (R171), and the assembler refuses to produce a word with
the reserved opcode (R45). -/
def Instr.wf : Instr → Bool
  | .nop => true
  | .proc _ _ _ _ _ _ _ => true
  | .rst => true
  | .rsvd3 => false

/-- A `PROC` line has exactly seven operands, each 0..1023 (R48). -/
def AsmCmd.wf : AsmCmd → Bool
  | .nop => true
  | .rst => true
  | .proc ops => ops.length == 7 && ops.all (fun n => n ≤ 1023)

/-- `.rep N` takes a positive `N` (R49). -/
def AsmItem.wf : AsmItem → Bool
  | .cmd c => c.wf
  | .rep n body => 0 < n && body.all AsmCmd.wf

end Sys2Proof
end

