-- ==== Sys2Proof/Decode.lean ====
section
/-! DEFINITION. The command word F72 (R42): fields, decoder, encoder, and the opcode table as match and mask.

A word has one length and one format; there is no fetch unit and no byte order (R32, R38). -/

namespace Sys2Proof

/-- `op = cmd_word[71:70]` (R42). -/
def opField (w : CmdWord) : BitVec 2 := w.extractLsb' 70 2

/-- `s_b = cmd_word[10*b+9 : 10*b]` (R44). -/
def sampleField (w : CmdWord) (b : Nat) : Sample := w.extractLsb' (10 * b) 10

/-- The decoder looks at `cmd_word[71:70]` only (R43); every word is some row of the table, the reserved opcode
being a row of its own, so nothing is left undecoded. The frame field of a word that is not `PROC` is ignored
(R45, U2). -/
def decode (w : CmdWord) : Instr :=
  match (opField w).toNat with
  | 0 => .nop
  | 1 => .proc (sampleField w 0) (sampleField w 1) (sampleField w 2) (sampleField w 3) (sampleField w 4)
           (sampleField w 5) (sampleField w 6)
  | 2 => .rst
  | _ => .rsvd3

/-- The opcode of a command (R43). -/
def opcodeOf : Instr → BitVec 2
  | .nop => 0#2
  | .proc _ _ _ _ _ _ _ => 1#2
  | .rst => 2#2
  | .rsvd3 => 3#2

/-- The frame field of a command's canonical word: the samples of a `PROC`, zeros elsewhere (R45, R48). -/
def frameBits : Instr → BitVec 70
  | .proc s0 s1 s2 s3 s4 s5 s6 => s6 ++ s5 ++ s4 ++ s3 ++ s2 ++ s1 ++ s0
  | .nop => 0#70
  | .rst => 0#70
  | .rsvd3 => 0#70

/-- `{op, s6, s5, s4, s3, s2, s1, s0}` (R48). The reserved command has an encoding (R43) although the assembler
produces none of its words (R45). -/
def encode (i : Instr) : CmdWord := opcodeOf i ++ frameBits i

/-- One row of R43's match and mask list. -/
structure OpRow where
  mnemonic : String
  pattern : CmdWord
  mask : CmdWord
deriving DecidableEq, Repr

/-- R43: match and mask over the 72-bit word. -/
def opcodeRows : List OpRow :=
  [ { mnemonic := "NOP", pattern := 0x000000000000000000#72, mask := 0xC00000000000000000#72 },
    { mnemonic := "PROC", pattern := 0x400000000000000000#72, mask := 0xC00000000000000000#72 },
    { mnemonic := "RST", pattern := 0x800000000000000000#72, mask := 0xC00000000000000000#72 },
    { mnemonic := "RSVD3", pattern := 0xC00000000000000000#72, mask := 0xC00000000000000000#72 } ]

/-- The row's mnemonic for a command, as the opcode table spells it. -/
def mnemonicOf : Instr → String
  | .nop => "NOP"
  | .proc _ _ _ _ _ _ _ => "PROC"
  | .rst => "RST"
  | .rsvd3 => "RSVD3"

/-- Whether a word matches a row. -/
def OpRow.hits (r : OpRow) (w : CmdWord) : Bool := (w &&& r.mask) == r.pattern

/-- The command word whose `nbits` table bits are `w`, every bit above them zero. -/
def tableWord (nbits w : Nat) : CmdWord := BitVec.ofNat 72 (w % 2 ^ nbits)

/-- The instruction the decoder reads from a word given as a number whose bit 0 is `cmd_word[0]`. A command is one
word of 72 bits, so a longer row is not a command (R42; log 13). -/
def decodeTableWord (nbits w : Nat) : Option Instr :=
  if nbits ≤ 72 then some (decode (tableWord nbits w)) else none

end Sys2Proof
end

