-- ==== Sys2Proof/Machine/Operands.lean ====
section
/-! DEFINITION. The one operand form: the frame of a `PROC` command (R44). There are no other immediates, no registers
to name and no addresses. -/

namespace Sys2Proof.Machine

/-- The frame from the seven samples of a `PROC`, band 0 first, used as they are (R44). -/
def frameOf (s0 s1 s2 s3 s4 s5 s6 : Sample) : Frame :=
  { b0 := s0, b1 := s1, b2 := s2, b3 := s3, b4 := s4, b5 := s5, b6 := s6 }

end Sys2Proof.Machine
end

