-- ==== Sys2Proof/Config.lean ====
section
/-! DEFINITION. What an implementation fixes: the shape of the constant table `CFG` (R17), and the values the spec
leaves open, as constants with no body, so that nothing can be proved of their value.

This hardware's instance of `CFG` is `Machine.cfgLsa` in Machine/Constants.lean. -/

namespace Sys2Proof

/-- The three coefficients of one compression segment, `a·x² + b·x + c` (R17, R91). -/
structure Seg where
  a : F32
  b : F32
  c : F32
deriving DecidableEq, Repr

/-- `CFG`: the read-only table of 38 binary32 constants (R17). The meanings of the commands take it as an argument
(93_implementation_defined.md U3). -/
structure Cfg where
  /-- Segment A, samples 2..9: indices 0 to 2. -/
  segA : Seg
  /-- Segment B, samples 10..99: indices 3 to 5. -/
  segB : Seg
  /-- Segment C, samples 100..1023: indices 6 to 8. -/
  segC : Seg
  /-- `W[b][c]`, index 9 + 3b + c. -/
  weight : Bands (Rgb F32)
  /-- Index 30. -/
  bias : F32
  /-- `A_AVG`, index 31. -/
  aAvg : F32
  /-- `A_S1`, index 32. -/
  aS1 : F32
  /-- `A_S2`, index 33. -/
  aS2 : F32
  /-- `DECAY`, index 34. -/
  decay : F32
  /-- `CUT_LO`, index 35. -/
  cutLo : F32
  /-- `CUT_HI`, index 36. -/
  cutHi : F32
  /-- `MAX_GAIN`, index 37. -/
  maxGain : F32
deriving DecidableEq, Repr

/-- The three operations that can answer a NaN made by themselves (R63, R65, R66). -/
inductive FOp where
  | add
  | mul
  | div
deriving DecidableEq, Repr

/-- Free value: the sign bit and the fraction bits of the NaN word an operation answers (R72; U9: any NaN word).
A fraction of zero would be an infinity; `Machine.nanWord` keeps the word a NaN. Log 3. -/
opaque Config.nanBits : FOp → F32 → F32 → BitVec 24

/-- Free value: `f2i_trunc` outside the range R71 defines it on (U10). Log 4. -/
opaque Config.truncOutside : F32 → OutByte

/-- Free constant: `T_PROC - 1`; `T_PROC` is an open parameter of at least 1 (R5, R41, D25). Log 5. -/
opaque Config.tProcPred : Nat

/-- Free constant: `T_RST - 1`; `T_RST` is an open parameter of at least 1 (R5, R41, D25). Log 5. -/
opaque Config.tRstPred : Nat

end Sys2Proof
end

