-- ==== Sys2Proof/Machine/Numerics.lean ====
section
/-! DEFINITION. Binary32 and its operations (40_numerics.md), over natural numbers and integers.

The value of a finite word is a whole number of units of `2^-149` (R60), so sums are integers of units, products and
quotients are fractions of them, and every operation rounds one fraction once (R62, R73). -/

namespace Sys2Proof.Machine

/-- The sign field `s = w[31]` (R60). -/
def fsign (w : F32) : Bool := w.getLsbD 31

/-- The biased exponent `e = w[30:23]` (R60). -/
def fexp (w : F32) : Nat := (w.extractLsb' 23 8).toNat

/-- The fraction `f = w[22:0]` (R60). -/
def ffrac (w : F32) : Nat := (w.extractLsb' 0 23).toNat

/-- A word from its three fields (R60). -/
def pack (s : Bool) (e f : Nat) : F32 := BitVec.ofBool s ++ BitVec.ofNat 8 e ++ BitVec.ofNat 23 f

/-- Class "NaN" of R60. -/
def isNaN (w : F32) : Bool := fexp w == 255 && ffrac w != 0

/-- Class "infinity" of R60. -/
def isInf (w : F32) : Bool := fexp w == 255 && ffrac w == 0

/-- Class "zero" of R60: +0 or -0. -/
def isZero (w : F32) : Bool := fexp w == 0 && ffrac w == 0

/-- `isFinite(a)`: `a[30:23] != 255` (R69). -/
def isFinite (w : F32) : Bool := fexp w != 255

def posZero : F32 := 0x00000000#32
def negZero : F32 := 0x80000000#32
def one : F32 := 0x3F800000#32

/-- The zero with sign `s`. -/
def zeroOf (s : Bool) : F32 := pack s 0 0

/-- The infinity with sign `s`. -/
def infOf (s : Bool) : F32 := pack s 255 0

/-- The magnitude of a finite word in units of `2^-149`: `f` for a subnormal, `(2^23 + f) * 2^(e-1)` for a normal
(R60, with `2^(e-150) = 2^(e-1) * 2^-149`). -/
def magUnits (w : F32) : Nat :=
  if fexp w = 0 then ffrac w else (2 ^ 23 + ffrac w) * 2 ^ (fexp w - 1)

/-- The value of a finite word in units of `2^-149`, both zeros being 0 (R60). -/
def units (w : F32) : Int := if fsign w then -(magUnits w : Int) else (magUnits w : Int)

/-- `val(w)` of a finite word, the rational number R60 gives it. Used by statements; no operation computes with it. -/
def val (w : F32) : ℚ := (units w : ℚ) / 2 ^ 149

/-- A NaN word made by an operation: which one is left open (R72, U9), so its sign and fraction are the free value
`Config.nanBits` (log 3). -/
def nanWord (op : FOp) (a b : F32) : F32 :=
  let r := Config.nanBits op a b
  let f := (r.extractLsb' 0 23).toNat
  pack (r.getLsbD 23) 255 (if f = 0 then 2 ^ 22 else f)

/-- `MAXF = (2^24 - 1) * 2^104` in units of `2^-149` (R60). -/
def maxUnits : Nat := (2 ^ 24 - 1) * 2 ^ 253

/-- The rounded magnitude of R62 for `a = num/den` units (`den > 0`): with `2^k` the spacing `u` in units, `n` and `r`
the quotient and remainder of `a / u`, round up when above half or on a tie with `n` odd. `k = 0` below `2^-126`. -/
def roundUnits (num den : Nat) : Nat :=
  let k := Nat.log2 (num / den) - 23
  let d := den * 2 ^ k
  let n := num / d
  let r := num % d
  let n' := if d < 2 * r ∨ (2 * r = d ∧ n % 2 = 1) then n + 1 else n
  n' * 2 ^ k

/-- The finite word with sign `s` and magnitude `m` units, for an `m` that is representable (R60, R62). -/
def finiteWord (s : Bool) (m : Nat) : F32 :=
  if m < 2 ^ 23 then pack s 0 m
  else
    let k := Nat.log2 m - 23
    pack s (k + 1) (m / 2 ^ k - 2 ^ 23)

/-- `rnd32` of R62 for the rational of sign `s` and magnitude `num/den` units of `2^-149`; `zs` is the sign of an exact
zero. A magnitude above `MAXF` gives the infinity; one rounded to 0 keeps the sign `s`. -/
def rnd32 (s : Bool) (num den : Nat) (zs : Bool) : F32 :=
  if num = 0 then zeroOf zs
  else
    let m := roundUnits num den
    if maxUnits < m then infOf s else finiteWord s m

/-- `fneg(b)`: the sign bit inverted (R64). -/
def fneg (b : F32) : F32 := b ^^^ 0x80000000#32

/-- `fadd(a, b)` (R63). -/
def fadd (a b : F32) : F32 :=
  if isNaN a || isNaN b then nanWord .add a b
  else if isInf a && isInf b then (if fsign a == fsign b then a else nanWord .add a b)
  else if isInf a then a
  else if isInf b then b
  else if isZero a && isZero b then (if fsign a && fsign b then negZero else posZero)
  else
    let t := units a + units b
    if t = 0 then posZero else rnd32 (t < 0) t.natAbs 1 false

/-- `fsub(a, b) = fadd(a, fneg(b))` (R64). -/
def fsub (a b : F32) : F32 := fadd a (fneg b)

/-- `fmul(a, b)` (R65). The product of two magnitudes is in units of `2^-298`. -/
def fmul (a b : F32) : F32 :=
  let s := fsign a ^^ fsign b
  if isNaN a || isNaN b then nanWord .mul a b
  else if (isInf a && isZero b) || (isZero a && isInf b) then nanWord .mul a b
  else if isInf a || isInf b then infOf s
  else if isZero a || isZero b then zeroOf s
  else rnd32 s (magUnits a * magUnits b) (2 ^ 149) s

/-- `fdiv(a, b)` (R66). Division by zero gives an infinity and raises nothing (R73). -/
def fdiv (a b : F32) : F32 :=
  let s := fsign a ^^ fsign b
  if isNaN a || isNaN b then nanWord .div a b
  else if isInf a && isInf b then nanWord .div a b
  else if isZero a && isZero b then nanWord .div a b
  else if isInf a then infOf s
  else if isInf b then zeroOf s
  else if isZero b then infOf s
  else if isZero a then zeroOf s
  else rnd32 s (magUnits a * 2 ^ 149) (magUnits b) s

/-- The place of a word that is not NaN in the order of R67: an infinity lies beyond every finite value. -/
def orderKey (w : F32) : Int :=
  if isInf w then (if fsign w then -(2 ^ 23 * 2 ^ 254) else 2 ^ 23 * 2 ^ 254) else units w

/-- `flt(a, b)` (R67): false on any NaN, `-0` equal to `+0`. -/
def flt (a b : F32) : Bool := !isNaN a && !isNaN b && decide (orderKey a < orderKey b)

/-- `fle(a, b)` (R67): neither is NaN and `flt(b, a)` is false. -/
def fle (a b : F32) : Bool := !isNaN a && !isNaN b && !flt b a

/-- `fmax(a, b) = a if flt(b, a) else b` (R68). -/
def fmax (a b : F32) : F32 := if flt b a then a else b

/-- `i2f(n)`: the word with value exactly `n` (R70). -/
def i2f (n : Sample) : F32 := rnd32 false (n.toNat * 2 ^ 149) 1 false

/-- `f2i_trunc(a)` for `1 <= val(a) < 255`: the integer part (R71). Outside that range the spec defines no result and
no rule evaluates it (U10): a free value (log 4). -/
def f2iTrunc (a : F32) : OutByte :=
  if fle one a && flt a 0x437F0000#32 then BitVec.ofNat 8 (magUnits a / 2 ^ 149) else Config.truncOutside a

end Sys2Proof.Machine
end

