-- ==== Sys2Proof/Machine/Constants.lean ====
section
/-! DEFINITION. The constant table of this hardware (R17) and the constants derived from a table (R18). -/

namespace Sys2Proof.Machine

/-- This hardware's `CFG`, the words of R17's two tables. -/
def cfgLsa : Cfg :=
  { segA := { a := 0xBC950000#32, b := 0x3F020000#32, c := 0x3D680000#32 }
    segB := { a := 0xB9640000#32, b := 0x3D790000#32, c := 0x402F0000#32 }
    segC := { a := 0xB6110000#32, b := 0x3BC70000#32, c := 0x40C20000#32 }
    weight :=
      { b0 := { red := 0x3F800000#32, green := 0x00000000#32, blue := 0x00000000#32 }
        b1 := { red := 0x3F800000#32, green := 0x00000000#32, blue := 0x00000000#32 }
        b2 := { red := 0x3F000000#32, green := 0x3F000000#32, blue := 0x00000000#32 }
        b3 := { red := 0x00000000#32, green := 0x3F800000#32, blue := 0x00000000#32 }
        b4 := { red := 0x00000000#32, green := 0x3F000000#32, blue := 0x3F000000#32 }
        b5 := { red := 0x00000000#32, green := 0x00000000#32, blue := 0x3F800000#32 }
        b6 := { red := 0x00000000#32, green := 0x00000000#32, blue := 0x3F800000#32 } }
    bias := 0x3F800000#32
    aAvg := 0x3B800000#32
    aS1 := 0x3E800000#32
    aS2 := 0x3D800000#32
    decay := 0x3F7F8000#32
    cutLo := 0x3F000000#32
    cutHi := 0x40000000#32
    maxGain := 0x43A00000#32 }

/-- The 38 entries in the order of R17's index. -/
def cfgEntries (cfg : Cfg) : List F32 :=
  [cfg.segA.a, cfg.segA.b, cfg.segA.c, cfg.segB.a, cfg.segB.b, cfg.segB.c, cfg.segC.a, cfg.segC.b, cfg.segC.c] ++
  cfg.weight.toList.flatMap (fun row => [row.red, row.green, row.blue]) ++
  [cfg.bias, cfg.aAvg, cfg.aS1, cfg.aS2, cfg.decay, cfg.cutLo, cfg.cutHi, cfg.maxGain]

/-- `ALLOC[c]`: the channel's weights summed from +0 in ascending band order (R18). -/
def alloc (cfg : Cfg) (c : ChanId) : F32 :=
  cfg.weight.toList.foldl (fun acc row => fadd acc (row.get c)) posZero

/-- `LO[c] = CUT_LO * ALLOC[c]` (R18). -/
def cutLow (cfg : Cfg) (c : ChanId) : F32 := fmul cfg.cutLo (alloc cfg c)

/-- `HI[c] = CUT_HI * ALLOC[c]` (R18). -/
def cutHigh (cfg : Cfg) (c : ChanId) : F32 := fmul cfg.cutHi (alloc cfg c)

/-- `SLOPE[c] = 1 / (HI * (HI - LO))` (R18). -/
def slope (cfg : Cfg) (c : ChanId) : F32 :=
  fdiv one (fmul (cutHigh cfg c) (fsub (cutHigh cfg c) (cutLow cfg c)))

end Sys2Proof.Machine
end

