-- ==== Sys2Proof/Machine/Compress.lean ====
section
/-! DEFINITION. Stages 1 and 2 of `PROC`: perceptual compressor and weighted-band mixer (41_compress_mix.md). -/

namespace Sys2Proof.Machine

/-- The segment of a sample, chosen by exact integer comparison; none below 2 (R92). -/
def segmentOf (cfg : Cfg) (s : Sample) : Option Seg :=
  if s.toNat < 2 then none
  else if s.toNat < 10 then some cfg.segA
  else if s.toNat < 100 then some cfg.segB
  else some cfg.segC

/-- `((a*x)*x + b*x) + c` (R91). -/
def quadratic (g : Seg) (x : F32) : F32 := fadd (fadd (fmul (fmul g.a x) x) (fmul g.b x)) g.c

/-- `compress(s)` (R91). -/
def compress (cfg : Cfg) (s : Sample) : F32 :=
  match segmentOf cfg s with
  | none => posZero
  | some g => quadratic g (i2f s)

/-- `L[b] = compress(s_b)` for every band (R91). -/
def compressFrame (cfg : Cfg) (f : Frame) : Bands F32 := f.map (compress cfg)

/-- `mix(L, c)`: from the bias, bands in ascending order, zero weights not skipped (R94). -/
def mix (cfg : Cfg) (l : Bands F32) (c : ChanId) : F32 :=
  (List.zip cfg.weight.toList l.toList).foldl (fun xt p => fadd xt (fmul (p.1.get c) p.2)) cfg.bias

end Sys2Proof.Machine
end

