-- ==== Sys2Proof/Machine/State.lean ====
section
/-! DEFINITION. The state of LSA: the fifteen registers of R10, and the transactions still to come on its ports. -/

namespace Sys2Proof.Machine

/-- The five registers of one channel: "three records of four named fields" (R11) and the output register (R12).
Channel state is private to its channel (R15). -/
structure Channel where
  /-- `AVG[c]`, LS's `average` (R11). -/
  avg : F32
  /-- `S1[c]`, LS's `smoothed1`, zero-centred and not clipped (R11, R112). -/
  s1 : F32
  /-- `ENV[c]`, LS's `runningMax` (R11). -/
  env : F32
  /-- `S2[c]`, LS's `smoothed2`, not clamped (R11, R127). -/
  s2 : F32
  /-- `OUT[c]`, the output register (R12). -/
  out : OutByte
deriving DecidableEq, Repr

/-- A transaction the outside world brings to the ports: LSA fetches nothing (R13), each command is accepted from the
command port (R41), and `rst_n` may be asserted at any time (R166, R168). -/
inductive PortEvent where
  /-- A word is accepted on the command port and carried out (R41). -/
  | command (w : CmdWord)
  /-- `rst_n` is low for a while (R166); a command it cut short is part of this event, since none of its writes
  happen (R168). -/
  | hardReset
deriving DecidableEq, Repr

/-- The state between two transactions. `red`, `green`, `blue` are the whole architectural state (R10). `port` is
the MODEL's own field: the transactions still to come, oldest first (log 1). -/
structure State where
  red : Channel
  green : Channel
  blue : Channel
  port : List PortEvent
deriving DecidableEq, Repr

/-- Channel `c`'s registers. -/
def State.chan (s : State) : ChanId → Channel
  | .red => s.red
  | .green => s.green
  | .blue => s.blue

/-- One channel after reset: the four scalars +0, the output 1 (R20). -/
def Channel.reset : Channel := { avg := 0#32, s1 := 0#32, env := 0#32, s2 := 0#32, out := 1#8 }

/-- The machine right after hardware reset (R20, R165). No transaction is waiting (log 1). -/
def State.reset : State :=
  { red := Channel.reset, green := Channel.reset, blue := Channel.reset, port := [] }

/-- Reasons to fault: none. "A model's step function for LSA … has no fault outcome" (R150). -/
inductive Fault where
deriving DecidableEq, Repr

/-- Reasons to refuse a command. -/
inductive Refusal where
  /-- No meaning written yet: raised by an arm of `exec`, and by none in this model. Safe: nothing is claimed of a run
  that reaches it. -/
  | notModelled (mnemonic : String)
  /-- The reserved opcode 3: raised by RSVD3 in every state. The spec tells a model to refuse it (R144, U1). Safe: the
  hardware goes on unchanged, and no claim covers a run that contains the word. -/
  | reservedOpcode
deriving DecidableEq, Repr

end Sys2Proof.Machine
end

