-- ==== Sys2Proof/Machine/Filters.lean ====
section
/-! DEFINITION. Steps 3a to 3h of `PROC` for one channel: average, smoothing, envelope, gain, quantizer, commit
(42_average_smooth.md, 43_envelope_gain.md, 44_output_stage.md). -/

namespace Sys2Proof.Machine

/-- `ema(s, x, a) = s + a*(x - s)` (R100). -/
def ema (s x a : F32) : F32 := fadd s (fmul a (fsub x s))

/-- Step 3d: negative deviations become +0; the register keeps the unclipped value (R112). -/
def clip (s11 : F32) : F32 := if flt s11 posZero then posZero else s11

/-- Step 3e: zero guard, silence, ramp, automatic gain, tested in this order (R113, R114). -/
def gain (cfg : Cfg) (c : ChanId) (m : F32) : F32 :=
  if fle m posZero then posZero
  else if flt m (cutLow cfg c) then posZero
  else if flt m (cutHigh cfg c) then fmul (fsub m (cutLow cfg c)) (slope cfg c)
  else fdiv one m

/-- Step 3h: floor 1, limiter 255, else the integer part (R126). -/
def quant (s : F32) : OutByte :=
  if flt s one then 1#8
  else if fle 0x437F0000#32 s then 255#8
  else f2iTrunc s

/-- The temporaries of one channel's step, by the names R142 gives them. -/
structure Temps where
  xt : F32
  avg1 : F32
  d : F32
  s11 : F32
  dm : F32
  env1 : F32
  p : F32
  g : F32
  n : F32
  s21 : F32
deriving DecidableEq, Repr

/-- Steps 3a to 3g from the channel's registers and its input `xt` (R142; R101, R102, R103, R110, R112, R113, R115,
R125). The deviation uses the updated average, the gain the updated envelope. -/
def temps (cfg : Cfg) (c : ChanId) (ch : Channel) (xt : F32) : Temps :=
  let avg1 := ema ch.avg xt cfg.aAvg
  let d := fsub xt avg1
  let s11 := ema ch.s1 d cfg.aS1
  let dm := fmul ch.env cfg.decay
  let env1 := fmax s11 dm
  let p := clip s11
  let g := gain cfg c env1
  let n := fmul (fmul p g) cfg.maxGain
  let s21 := ema ch.s2 n cfg.aS2
  { xt := xt, avg1 := avg1, d := d, s11 := s11, dm := dm, env1 := env1, p := p, g := g, n := n, s21 := s21 }

/-- The commit condition: the input and the four tentative registers are finite (R130). -/
def commits (t : Temps) : Bool :=
  isFinite t.xt && isFinite t.avg1 && isFinite t.s11 && isFinite t.env1 && isFinite t.s21

/-- Commit: the five registers together, or none of them (R130, R127). -/
def commit (ch : Channel) (t : Temps) : Channel :=
  if commits t then { avg := t.avg1, s1 := t.s11, env := t.env1, s2 := t.s21, out := quant t.s21 } else ch

/-- Steps 3a to 3h of one channel (R142). It reads that channel's registers only (R15). -/
def channelStep (cfg : Cfg) (c : ChanId) (ch : Channel) (xt : F32) : Channel := commit ch (temps cfg c ch xt)

end Sys2Proof.Machine
end

