-- ==== Sys2Proof/Machine/Ops.lean ====
section
/-! DEFINITION. The named operations on the registers. There is no memory (R30); taking an exception and returning from
one do not exist (R150, R154), so no operation stands for them. -/

namespace Sys2Proof.Machine

/-- Write channel `c`'s registers. -/
def State.setChan (s : State) (c : ChanId) (ch : Channel) : State :=
  match c with
  | .red => { s with red := ch }
  | .green => { s with green := ch }
  | .blue => { s with blue := ch }

/-- The reset state of R20 in all fifteen registers: what `RST` (R143) and hardware reset (R165, R166) leave. What the
outside world still has to bring is not a register and stays (log 9). -/
def State.resetRegs (s : State) : State :=
  { s with red := Channel.reset, green := Channel.reset, blue := Channel.reset }

/-- The response, and what `out_r`, `out_g`, `out_b` show at all times (R50, R132). -/
def State.outputs (s : State) : Rgb OutByte := { red := s.red.out, green := s.green.out, blue := s.blue.out }

/-- One channel of a `PROC`: stages 2 to 3h from the compressed values (R142). -/
def processChannel (cfg : Cfg) (l : Bands F32) (c : ChanId) (s : State) : State :=
  s.setChan c (channelStep cfg c (s.chan c) (mix cfg l c))

/-- `PROC` on all three channels, each from the registers before the command (R142, R145). -/
def processFrame (cfg : Cfg) (f : Frame) (s : State) : State :=
  let l := compressFrame cfg f
  { red := channelStep cfg .red s.red (mix cfg l .red)
    green := channelStep cfg .green s.green (mix cfg l .green)
    blue := channelStep cfg .blue s.blue (mix cfg l .blue)
    port := s.port }

end Sys2Proof.Machine
end

