-- ==== Sys2Proof/Machine/Commands.lean ====
section
/-! DEFINITION. The meanings of the commands as wholes (45_commands.md). No command raises an exception (R150); each is
atomic and total (R141). -/

namespace Sys2Proof.Machine

/-- `NOP`: no register changes (R140). -/
def execNop (s : State) : Host.Outcome State Fault Refusal := .next s

/-- `PROC s0, …, s6` with this hardware's constants (R142, R17). -/
def execProc (s0 s1 s2 s3 s4 s5 s6 : Sample) (s : State) : Host.Outcome State Fault Refusal :=
  .next (processFrame cfgLsa (frameOf s0 s1 s2 s3 s4 s5 s6) s)

/-- `RST`: all fifteen registers to the reset state (R143, R20). -/
def execRst (s : State) : Host.Outcome State Fault Refusal := .next s.resetRegs

/-- The reserved opcode: a model "should *refuse* the word" (R144, U1; log 2). -/
def execRsvd3 (_s : State) : Host.Outcome State Fault Refusal := .refused .reservedOpcode

end Sys2Proof.Machine
end

