-- ==== Sys2Proof/Machine/Dispatch.lean ====
section
/-! DEFINITION. One arm per command of the opcode table. -/

namespace Sys2Proof.Machine

def exec (i : Instr) (s : State) : Host.Outcome State Fault Refusal :=
  match i with
  | .nop => Sys2Proof.Machine.execNop s
  | .proc s0 s1 s2 s3 s4 s5 s6 => Sys2Proof.Machine.execProc s0 s1 s2 s3 s4 s5 s6 s
  | .rst => Sys2Proof.Machine.execRst s
  | .rsvd3 => Sys2Proof.Machine.execRsvd3 s

end Sys2Proof.Machine
end

