-- ==== Sys2Proof/Machine/Events.lean ====
section
/-! DEFINITION. What one transaction on the ports does, and a run of them (R36, R41, R165). -/

namespace Sys2Proof.Machine

/-- Carry out one transaction: a command's meaning (R41, R43), or hardware reset (R165, R166). -/
def runEvent (e : PortEvent) (s : State) : Host.Outcome State Fault Refusal :=
  match e with
  | .command w => exec (decode w) s
  | .hardReset => .next s.resetRegs

/-- The left fold of the transactions, oldest first (R36), up to the first refusal. -/
def runEvents (es : List PortEvent) (s : State) : Host.Outcome State Fault Refusal :=
  match es with
  | [] => .next s
  | e :: rest =>
    match runEvent e s with
    | .next t => runEvents rest t
    | .fault r => .fault r
    | .refused r => .refused r

/-- A run of accepted command words, in order of acceptance (R36, R41). -/
def runCommands (ws : List CmdWord) (s : State) : Host.Outcome State Fault Refusal :=
  runEvents (ws.map PortEvent.command) s

/-- The state with its oldest waiting transaction taken off the port. -/
def State.popPort (s : State) : State := { s with port := s.port.tail }

/-- What a step does: the oldest waiting transaction. With none waiting, LSA "simply holds its state" (R158 item H6,
R174; log 6). -/
def runPort (s : State) : Host.Outcome State Fault Refusal :=
  match s.port with
  | [] => .next s
  | e :: _ => runEvent e s.popPort

end Sys2Proof.Machine
end

