-- ==== Sys2Proof/Machine/Step.lean ====
section
/-! DEFINITION. One step of the machine: one transaction on the ports. -/

namespace Sys2Proof.Machine

/-- One step: the oldest transaction waiting on the ports is carried out completely (R36, R41, R141). -/
def step (s : State) : Host.Outcome State Fault Refusal := runPort s

/-- The host presents this command word next: it becomes the oldest waiting transaction (R13, R41; log 1). -/
def State.withFetchWord (s : State) (nbits w : Nat) : State :=
  { s with port := .command (tableWord nbits w) :: s.port }

end Sys2Proof.Machine
end

