-- ==== Sys2Proof/Machine/Assembler.lean ====
section
/-! DEFINITION. The assembler of R48 and R49: from text to command words.

The text is a list of characters. Spaces, tabs and carriage returns separate words, and a blank line says nothing
(log 12). -/

namespace Sys2Proof.Machine

/-- A token of a line. -/
inductive AsmTok where
  | word (cs : List Char)
  | comma
deriving DecidableEq, Repr

/-- A line of assembly after parsing. -/
inductive AsmLine where
  | blank
  | cmd (c : AsmCmd)
  | rep (n : Nat)
  | endr
deriving DecidableEq, Repr

/-- All of the answers, or none. -/
def allSome {α : Type} : List (Option α) → Option (List α)
  | [] => some []
  | none :: _ => none
  | some a :: rest => (allSome rest).map (a :: ·)

/-- The lines of a text. -/
def asmLines : List Char → List (List Char)
  | [] => [[]]
  | c :: cs =>
    match asmLines cs with
    | [] => [[c]]
    | l :: ls => if c = '\n' then [] :: l :: ls else (c :: l) :: ls

/-- "`;` starts a comment" (R48). -/
def stripComment (cs : List Char) : List Char := cs.takeWhile (fun c => c != ';')

def isBlankChar (c : Char) : Bool := c == ' ' || c == '\t' || c == '\r'

/-- The word collected so far (backwards), if any. -/
def flushWord (cur : List Char) : List AsmTok := if cur.isEmpty then [] else [.word cur.reverse]

/-- Split a line into words and commas; `cur` is the word being read, backwards. -/
def asmTokens : List Char → List Char → List AsmTok
  | [], cur => flushWord cur
  | c :: cs, cur =>
    if c = ',' then flushWord cur ++ .comma :: asmTokens cs []
    else if isBlankChar c then flushWord cur ++ asmTokens cs []
    else asmTokens cs (c :: cur)

/-- A digit's value in a base of at most 16; letters of either case stand for ten to fifteen. -/
def digitValue (base : Nat) (c : Char) : Option Nat :=
  let v := c.toNat
  let d :=
    if 48 ≤ v && v ≤ 57 then v - 48
    else if 65 ≤ v && v ≤ 70 then v - 55
    else if 97 ≤ v && v ≤ 102 then v - 87
    else 16
  if d < base then some d else none

/-- The value of a nonempty run of digits. -/
def digitsValue (base : Nat) (cs : List Char) : Option Nat :=
  if cs.isEmpty then none
  else (allSome (cs.map (digitValue base))).map (fun ds => ds.foldl (fun acc d => base * acc + d) 0)

/-- An operand: "decimal (or 0x hexadecimal)" (R48). -/
def operandValue : List Char → Option Nat
  | '0' :: 'x' :: hex => digitsValue 16 hex
  | cs => digitsValue 10 cs

/-- Operands separated by commas. -/
def operandList : List AsmTok → Option (List Nat)
  | [.word w] => (operandValue w).map (fun n => [n])
  | .word w :: .comma :: rest =>
    match operandValue w, operandList rest with
    | some n, some ns => some (n :: ns)
    | _, _ => none
  | _ => none

/-- One line (R48, R49). Mnemonics are upper case. -/
def parseLine : List AsmTok → Option AsmLine
  | [] => some .blank
  | .comma :: _ => none
  | .word w :: rest =>
    if w = ['N', 'O', 'P'] then (if rest = [] then some (.cmd .nop) else none)
    else if w = ['R', 'S', 'T'] then (if rest = [] then some (.cmd .rst) else none)
    else if w = ['.', 'e', 'n', 'd', 'r'] then (if rest = [] then some .endr else none)
    else if w = ['P', 'R', 'O', 'C'] then (operandList rest).map (fun ops => .cmd (.proc ops))
    else if w = ['.', 'r', 'e', 'p'] then
      match rest with
      | [.word n] => (digitsValue 10 n).map .rep
      | _ => none
    else none

/-- Gather the lines into items; the second argument is the open `.rep` block, if any. Blocks do not nest and each is
closed (R49). -/
def gatherItems : List AsmLine → Option (Nat × List AsmCmd) → Option (List AsmItem)
  | [], none => some []
  | [], some _ => none
  | .blank :: ls, blk => gatherItems ls blk
  | .cmd c :: ls, none => (gatherItems ls none).map (.cmd c :: ·)
  | .cmd c :: ls, some (n, body) => gatherItems ls (some (n, body ++ [c]))
  | .rep n :: ls, none => gatherItems ls (some (n, []))
  | .rep _ :: _, some _ => none
  | .endr :: _, none => none
  | .endr :: ls, some (n, body) => (gatherItems ls none).map (.rep n body :: ·)

/-- The word of one command line; none for an assembly error (R48). -/
def assembleCmd (c : AsmCmd) : Option CmdWord :=
  if c.wf then
    match c with
    | .nop => some (encode .nop)
    | .rst => some (encode .rst)
    | .proc [n0, n1, n2, n3, n4, n5, n6] =>
      some (encode (.proc (BitVec.ofNat 10 n0) (BitVec.ofNat 10 n1) (BitVec.ofNat 10 n2) (BitVec.ofNat 10 n3)
        (BitVec.ofNat 10 n4) (BitVec.ofNat 10 n5) (BitVec.ofNat 10 n6)))
    | .proc _ => none
  else none

/-- The words of one item: a `.rep N` block is `N` consecutive copies of its lines (R49). -/
def assembleItem (i : AsmItem) : Option (List CmdWord) :=
  if i.wf then
    match i with
    | .cmd c => (assembleCmd c).map (fun w => [w])
    | .rep n body => (allSome (body.map assembleCmd)).map (fun ws => (List.replicate n ws).flatten)
  else none

/-- The words of a list of items, in order. -/
def assembleItems (is : List AsmItem) : Option (List CmdWord) := (allSome (is.map assembleItem)).map List.flatten

/-- Assemble a text (R48, R49). -/
def assemble (text : List Char) : Option (List CmdWord) :=
  match allSome ((asmLines text).map (fun l => parseLine (asmTokens (stripComment l) []))) with
  | none => none
  | some ls =>
    match gatherItems ls none with
    | none => none
    | some is => assembleItems is

end Sys2Proof.Machine
end

