-- ==== Sys2Proof/Machine/Exact.lean ====
section
/-! DEFINITION. The exact-rational reading of the datapath (40_numerics.md section 4), informative in the spec: "The
rational reading is **not** the hardware: it is a cross-check". The same rules with exact arithmetic over the same
constants; nothing of `step` depends on it. -/

namespace Sys2Proof.Machine

/-- One channel's registers in the rational reading. -/
structure ExactChannel where
  avg : ℚ
  s1 : ℚ
  env : ℚ
  s2 : ℚ
  out : Nat
deriving DecidableEq, Repr

/-- The reset state (R20) in the rational reading. -/
def ExactChannel.reset : ExactChannel := { avg := 0, s1 := 0, env := 0, s2 := 0, out := 1 }

/-- `compress(s)` (R91). -/
def exactCompress (cfg : Cfg) (s : Sample) : ℚ :=
  match segmentOf cfg s with
  | none => 0
  | some g => (val g.a * s.toNat) * s.toNat + val g.b * s.toNat + val g.c

/-- `mix(L, c)` (R94). -/
def exactMix (cfg : Cfg) (f : Frame) (c : ChanId) : ℚ :=
  (List.zip cfg.weight.toList f.toList).foldl (fun xt p => xt + val (p.1.get c) * exactCompress cfg p.2) (val cfg.bias)

/-- `ALLOC[c]` (R18). -/
def exactAlloc (cfg : Cfg) (c : ChanId) : ℚ := cfg.weight.toList.foldl (fun acc row => acc + val (row.get c)) 0

/-- `LO[c]` (R18). -/
def exactLow (cfg : Cfg) (c : ChanId) : ℚ := val cfg.cutLo * exactAlloc cfg c

/-- `HI[c]` (R18). -/
def exactHigh (cfg : Cfg) (c : ChanId) : ℚ := val cfg.cutHi * exactAlloc cfg c

/-- `SLOPE[c]` (R18): 4/75, 1/12, 4/75 on this hardware. -/
def exactSlope (cfg : Cfg) (c : ChanId) : ℚ := 1 / (exactHigh cfg c * (exactHigh cfg c - exactLow cfg c))

/-- `ema(s, x, a)` (R100). -/
def exactEma (s x a : ℚ) : ℚ := s + a * (x - s)

/-- The gain, with its zero guard (R113, R114). -/
def exactGain (cfg : Cfg) (c : ChanId) (m : ℚ) : ℚ :=
  if m ≤ 0 then 0
  else if m < exactLow cfg c then 0
  else if m < exactHigh cfg c then (m - exactLow cfg c) * exactSlope cfg c
  else 1 / m

/-- The quantizer (R126). -/
def exactQuant (s : ℚ) : Nat := if s < 1 then 1 else if 255 ≤ s then 255 else ⌊s⌋.toNat

/-- Steps 3a to 3h of one channel (R142). The non-finite guard never acts: `isFinite` reads as true. -/
def exactStep (cfg : Cfg) (c : ChanId) (ch : ExactChannel) (f : Frame) : ExactChannel :=
  let xt := exactMix cfg f c
  let avg1 := exactEma ch.avg xt (val cfg.aAvg)
  let s11 := exactEma ch.s1 (xt - avg1) (val cfg.aS1)
  let dm := ch.env * val cfg.decay
  let env1 := if dm < s11 then s11 else dm
  let p := if s11 < 0 then 0 else s11
  let s21 := exactEma ch.s2 (p * exactGain cfg c env1 * val cfg.maxGain) (val cfg.aS2)
  { avg := avg1, s1 := s11, env := env1, s2 := s21, out := exactQuant s21 }

/-- A run of frames on one channel. -/
def exactRun (cfg : Cfg) (c : ChanId) (fs : List Frame) (ch : ExactChannel) : ExactChannel :=
  fs.foldl (fun acc f => exactStep cfg c acc f) ch

end Sys2Proof.Machine
end

