-- ==== Sys2Proof/Machine/Port.lean ====
section
/-! DEFINITION. The ports at the level of signals (R40, R41, R50, R166, R168), clock edge by clock edge.

A layer around the transactions of Machine/Step.lean: "Only the *transaction* they carry is normative" (R40). It says
which pins make which transactions. -/

namespace Sys2Proof.Machine

/-- The input pins, sampled on a rising edge of `clk` (R40). -/
structure Pins where
  rstN : Bool
  cmdValid : Bool
  cmdWord : CmdWord
deriving DecidableEq, Repr

/-- A command in progress and the edges left until `cmd_ready` returns high (R19, R41). -/
structure Busy where
  word : CmdWord
  left : Nat
deriving DecidableEq, Repr

/-- LSA between two clock edges: the registers, and the command in progress if there is one. -/
structure Block where
  core : State
  busy : Option Busy
deriving DecidableEq, Repr

/-- The block after hardware reset: "ready for `PROC` at once" (R166, R169). -/
def Block.reset : Block := { core := State.reset, busy := none }

/-- `T_PROC` for `PROC`, `T_RST` for any other opcode; both open, at least 1 (R41; log 5). -/
def latency (w : CmdWord) : Nat := if opField w = 1#2 then Config.tProcPred + 1 else Config.tRstPred + 1

/-- `cmd_ready`: low while a command is in progress and while `rst_n` is low (R40). -/
def cmdReady (b : Block) (p : Pins) : Bool := p.rstN && b.busy.isNone

/-- The word accepted at this edge: `cmd_valid`, `cmd_ready` and `rst_n` are all high (R41). -/
def acceptedWord (b : Block) (p : Pins) : Option CmdWord :=
  if cmdReady b p && p.cmdValid then some p.cmdWord else none

/-- The end of a command in progress: its whole effect at once, and `cmd_ready` high again (R41, R141). -/
def Block.complete (b : Block) (w : CmdWord) : Host.Outcome Block Fault Refusal :=
  match runEvent (.command w) b.core with
  | .next t => .next { core := t, busy := none }
  | .fault r => .fault r
  | .refused r => .refused r

/-- One rising clock edge. With `rst_n` low the block is in the reset state and a command in progress is abandoned
(R166, R168). Otherwise a command in progress counts down and then completes; with none in progress a presented word
is accepted (R41). -/
def clockEdge (b : Block) (p : Pins) : Host.Outcome Block Fault Refusal :=
  if p.rstN then
    match b.busy with
    | some k =>
      if k.left ≤ 1 then b.complete k.word
      else .next { core := b.core, busy := some { word := k.word, left := k.left - 1 } }
    | none =>
      match acceptedWord b p with
      | some w => .next { core := b.core, busy := some { word := w, left := latency w } }
      | none => .next b
  else .next { core := b.core.resetRegs, busy := none }

/-- A run of clock edges. -/
def runClock (ps : List Pins) (b : Block) : Host.Outcome Block Fault Refusal :=
  match ps with
  | [] => .next b
  | p :: rest =>
    match clockEdge b p with
    | .next b' => runClock rest b'
    | .fault r => .fault r
    | .refused r => .refused r

/-- The command sequence: the accepted words of a run of clock edges, in order of acceptance (R41). -/
def acceptedWords (ps : List Pins) (b : Block) : List CmdWord :=
  match ps with
  | [] => []
  | p :: rest =>
    (acceptedWord b p).toList ++
      match clockEdge b p with
      | .next b' => acceptedWords rest b'
      | .fault _ => []
      | .refused _ => []

/-- The transaction that a clock edge ends, if it ends one: hardware reset, or the command that completes. -/
def edgeEvent (b : Block) (p : Pins) : Option PortEvent :=
  if p.rstN then
    match b.busy with
    | some k => if k.left ≤ 1 then some (.command k.word) else none
    | none => none
  else some .hardReset

/-- The transactions of a run of clock edges, in order. -/
def edgeEvents (ps : List Pins) (b : Block) : List PortEvent :=
  match ps with
  | [] => []
  | p :: rest =>
    (edgeEvent b p).toList ++
      match clockEdge b p with
      | .next b' => edgeEvents rest b'
      | .fault _ => []
      | .refused _ => []

/-- What `out_r`, `out_g`, `out_b` show at all times (R50). -/
def Block.outputs (b : Block) : Rgb OutByte := b.core.outputs

end Sys2Proof.Machine
end

