-- ==== Sys2Proof/Safety.lean ====
section
/-! DEFINITION. The terms the statements use: the invariants of R16, the ranges of this hardware's registers, R62's
rounding over the rationals, and what may be said of a table of constants. -/

namespace Sys2Proof.Machine

/-- Every channel has a property of its registers. -/
def everyChannel (P : ChanId → Channel → Prop) (s : State) : Prop :=
  P .red s.red ∧ P .green s.green ∧ P .blue s.blue

/-- The invariants of R16 for one channel: the four scalars are finite (item 1), `ENV >= +0` and not `-0` (item 3),
`S1 <= ENV` (item 4), `1 <= OUT <= 255` (item 5), `OUT = quant(S2)` (item 6). -/
structure ChannelInv (ch : Channel) : Prop where
  avg_finite : isFinite ch.avg = true
  s1_finite : isFinite ch.s1 = true
  env_finite : isFinite ch.env = true
  s2_finite : isFinite ch.s2 = true
  env_sign : fsign ch.env = false
  s1_le_env : fle ch.s1 ch.env = true
  out_pos : 1 ≤ ch.out.toNat
  out_quant : ch.out = quant ch.s2

/-- R16 for the machine. -/
def StateInv (s : State) : Prop := everyChannel (fun _ ch => ChannelInv ch) s

/-- `XMAX[c]`: the largest `xt`, that of the frame of seven 1023s (R95). -/
def xmax : ChanId → F32
  | .red => 0x41D0478E#32
  | .green => 0x41A8393E#32
  | .blue => 0x41D0478D#32

/-- `1 - XMAX[c]`, the least deviation (R104 item 2). -/
def dmin (c : ChanId) : F32 := fsub one (xmax c)

/-- 321, R131's upper bound of `n` and `S2`. -/
def bound321 : F32 := 0x43A08000#32

/-- A word with sign bit 0 that is at most `hi`: the interval `[+0, hi]`, without `-0`. -/
def inPosRange (w hi : F32) : Prop := fsign w = false ∧ fle w hi = true

/-- The ranges of this hardware's registers (R104 items 1 and 2, R131): `AVG` and `ENV` in `[+0, XMAX]`, `S1` in
`[1 - XMAX, XMAX]`, `S2` in `[+0, 321]`. -/
structure ChannelBounded (c : ChanId) (ch : Channel) : Prop where
  avg_range : inPosRange ch.avg (xmax c)
  s1_low : fle (dmin c) ch.s1 = true
  s1_high : fle ch.s1 (xmax c) = true
  env_range : inPosRange ch.env (xmax c)
  s2_range : inPosRange ch.s2 bound321

/-- The ranges of all registers. -/
def StateBounded (s : State) : Prop := everyChannel ChannelBounded s

/-- A positive binary32 value. -/
def isPositive (w : F32) : Bool := flt posZero w

/-- A channel that has not seen a `PROC` since reset (its average and smoothed deviation are +0), or whose envelope is
positive: what keeps the zero guard from acting (R151). -/
def Awake (ch : Channel) : Prop := (ch.avg = posZero ∧ ch.s1 = posZero) ∨ isPositive ch.env = true

/-- A word with the reserved opcode (R45). -/
def isReserved (w : CmdWord) : Bool := opField w == 3#2

/-- Safe runs: the transactions hold no reserved word. A correct host sends no other (R171). -/
def noReserved (es : List PortEvent) : Prop := ∀ w, PortEvent.command w ∈ es → isReserved w = false

/-- `MAXF` as a rational (R60). -/
def maxF : ℚ := (2 ^ 24 - 1) * 2 ^ 104

/-- `w` is the word R62's `rnd32(q, zs)` returns, read off R62's own lines over the rationals. `Int.log 2 a` is
`floor(log2(a))`. -/
def roundsTo (q : ℚ) (zs : Bool) (w : F32) : Prop :=
  if q = 0 then w = zeroOf zs
  else
    let a : ℚ := |q|
    let e : Int := max (Int.log 2 a) (-126)
    let u : ℚ := (2 : ℚ) ^ (e - 23)
    let n : Int := ⌊a / u⌋
    let r : ℚ := a / u - n
    let n' : Int := if 1 / 2 < r ∨ (r = 1 / 2 ∧ n % 2 = 1) then n + 1 else n
    let m : ℚ := n' * u
    if maxF < m then w = infOf (decide (q < 0))
    else isFinite w = true ∧ fsign w = decide (q < 0) ∧ |val w| = m

/-- The numeric conditions R17 puts on any choice of `CFG`: weights not negative, bias 1, `0 < a < 1` with the average
slowest and the first smoothing fastest, `0 < DECAY < 1`, `0 <= CUT_LO < CUT_HI`, `MAX_GAIN > 0`. (Monotone
compression is a statement of its own.) -/
def cfgAdmissible (cfg : Cfg) : Bool :=
  cfg.weight.toList.all (fun row => fle posZero row.red && fle posZero row.green && fle posZero row.blue) &&
  cfg.bias == one &&
  flt posZero cfg.aAvg && flt cfg.aAvg cfg.aS2 && flt cfg.aS2 cfg.aS1 && flt cfg.aS1 one &&
  flt posZero cfg.decay && flt cfg.decay one &&
  fle posZero cfg.cutLo && flt cfg.cutLo cfg.cutHi &&
  flt posZero cfg.maxGain

end Sys2Proof.Machine
end

