-- ==== Sys2Proof/Certificates/Slice0/Obligations.lean ====
section
/-! DEFINITION. The statements for the provers. Each docstring names the rule of spec/ it formalises, or says that it is
derived. -/

open Sys2Proof Sys2Proof.Machine

/-! ### Reset -/

/-- R20: "After hardware reset, and after every `RST` command, the state is exactly" zeros and `OUT` = 1. -/
def Obligations.ResetLeavesTheStatedValues : Prop :=
  ∀ c, (State.reset.chan c).avg = 0x00000000#32 ∧ (State.reset.chan c).s1 = 0x00000000#32 ∧
    (State.reset.chan c).env = 0x00000000#32 ∧ (State.reset.chan c).s2 = 0x00000000#32 ∧
    (State.reset.chan c).out = 0x01#8 ∧
    ∀ s t, (runEvent .hardReset s = .next t ∨ exec .rst s = .next t) → t.chan c = State.reset.chan c

/-- R165: hardware reset and `RST` "produce the same state, the reset state". (The model's own field `port` is in
`EveryCommandLeavesThePort`.) -/
def Obligations.BothResetEventsAgree : Prop :=
  ∀ s, ∃ t, runEvent .hardReset s = .next t ∧ exec .rst s = .next t ∧ ∀ c, t.chan c = State.reset.chan c

/-! ### The commands as wholes -/

/-- R140: `NOP` is opcode 0 with any frame field, and no register changes. The completion statement and the frame of
`NOP`. -/
def Obligations.NopChangesNothing : Prop :=
  ∀ s : State, exec .nop s = .next s ∧ ∀ w : CmdWord, opField w = 0#2 → decode w = .nop

/-- R142: `PROC` completes in every state for every frame, and leaves in each channel what the pseudocode says. The
completion statement of `PROC`. (The model's own field `port` is in `EveryCommandLeavesThePort`.) -/
def Obligations.ProcRunsTheStagesOnEveryChannel : Prop :=
  ∀ (s0 s1 s2 s3 s4 s5 s6 : Sample) (s : State), ∃ t, exec (.proc s0 s1 s2 s3 s4 s5 s6) s = .next t ∧
    ∀ c,
      let l := (frameOf s0 s1 s2 s3 s4 s5 s6).map (compress cfgLsa)
      let ch := s.chan c
      let xt := mix cfgLsa l c
      let avg1 := fadd ch.avg (fmul cfgLsa.aAvg (fsub xt ch.avg))
      let d := fsub xt avg1
      let s11 := fadd ch.s1 (fmul cfgLsa.aS1 (fsub d ch.s1))
      let dm := fmul ch.env cfgLsa.decay
      let env1 := if flt dm s11 then s11 else dm
      let p := if flt s11 posZero then posZero else s11
      let g := gain cfgLsa c env1
      let n := fmul (fmul p g) cfgLsa.maxGain
      let s21 := fadd ch.s2 (fmul cfgLsa.aS2 (fsub n ch.s2))
      t.chan c =
          (if isFinite xt && isFinite avg1 && isFinite s11 && isFinite env1 && isFinite s21 then
            { avg := avg1, s1 := s11, env := env1, s2 := s21, out := quant s21 }
          else ch) ∧
        t.outputs.get c = (t.chan c).out

/-- R143: `RST` is opcode 2 with any frame field; all fifteen registers go to the reset state, whatever they held; on
the reset state it changes nothing, and twice is once. The completion statement of `RST`. (The model's own field `port`
is in `EveryCommandLeavesThePort`.) -/
def Obligations.RstClearsEveryRegister : Prop :=
  (∀ s : State, ∃ t, exec .rst s = .next t ∧ exec .rst t = .next t ∧
    ∀ c, t.chan c = { avg := 0#32, s1 := 0#32, env := 0#32, s2 := 0#32, out := 1#8 }) ∧
  exec .rst State.reset = .next State.reset ∧
  ∀ w : CmdWord, opField w = 2#2 → decode w = .rst

/-- Derived (the model's choice, logs 1 and 9: the spec has no such field): each command that completes, and hardware
reset, leaves the model's own field `port` as it is. -/
def Obligations.EveryCommandLeavesThePort : Prop :=
  ∀ s : State,
    (∃ t, exec .nop s = .next t ∧ t.port = s.port) ∧
    (∀ s0 s1 s2 s3 s4 s5 s6 : Sample, ∃ t, exec (.proc s0 s1 s2 s3 s4 s5 s6) s = .next t ∧ t.port = s.port) ∧
    (∃ t, exec .rst s = .next t ∧ t.port = s.port) ∧
    ∃ t, runEvent .hardReset s = .next t ∧ t.port = s.port

/-- R143's "After `RST` the block's future behaviour is the same as after hardware reset, whatever came before", as
runs of command words: two histories are told apart by nothing after an `RST`. Derived: two states that agree on the
model's port field (log 1) are compared. -/
def Obligations.NothingBeforeRstShows : Prop :=
  ∀ (w : CmdWord) (ws : List CmdWord) (s s' : State), opField w = 2#2 → s.port = s'.port →
    runCommands (w :: ws) s = runCommands (w :: ws) s' ∧
    runCommands (w :: ws) s = runEvents (.hardReset :: ws.map PortEvent.command) s'

/-- The reserved opcode stops by name in every state and with every frame field: R144 tells a model to refuse the word
(the hardware would go on unchanged; log 2). -/
def Obligations.ReservedOpcodeIsRefused : Prop :=
  (∀ s : State, exec .rsvd3 s = .refused .reservedOpcode) ∧
  ∀ (s : State) (w : CmdWord) (es : List PortEvent), opField w = 3#2 →
    decode w = .rsvd3 ∧ step { s with port := .command w :: es } = .refused .reservedOpcode

/-! ### Steps -/

/-- A step carries out the oldest transaction on the port, with that transaction taken off (log 1); with none waiting the
state holds (log 6). When the word on the port decodes to `i`, the step is `exec i`. -/
def Obligations.StepRunsTheDecodedCommand : Prop :=
  (∀ (s : State) (w : CmdWord) (es : List PortEvent) (i : Instr), s.port = .command w :: es → decode w = i →
    step s = exec i { s with port := es }) ∧
  (∀ (s : State) (es : List PortEvent), s.port = .hardReset :: es →
    step s = .next { State.reset with port := es }) ∧
  (∀ s : State, s.port = [] → step s = .next s) ∧
  (∀ (s : State) (nbits w : Nat) (i : Instr), decodeTableWord nbits w = some i →
    step (s.withFetchWord nbits w) = exec i s)

/-- R36: "The state after a command sequence is the left fold of the command semantics": running one step per
transaction is the fold. (Transactions include hardware reset, and a refusal ends both.) -/
def Obligations.RunIsTheLeftFold : Prop :=
  ∀ (es : List PortEvent) (s : State),
    Host.Core.run core es.length ({ s with port := es } : State) = runEvents es { s with port := [] }

/-! ### Encoding -/

/-- Words of 97_family_vectors.md section 2.1, read off R42's layout, decode to their commands. -/
def Obligations.WrittenOutWordsDecode : Prop :=
  decode 0x000000000000000000#72 = .nop ∧
  decode 0x3FFFFFFFFFFFFFFFFF#72 = .nop ∧
  decode 0x407018050100300801#72 = .proc 1 2 3 4 5 6 7 ∧
  decode 0x4123456789ABCDEF01#72 = .proc 769 891 700 550 359 209 18 ∧
  decode 0x8123456789ABCDEF01#72 = .rst ∧
  decode 0xC00000000000000000#72 = .rsvd3

/-- Decode and encode agree on every command, with every operand. -/
def Obligations.DecodeInvertsEncode : Prop :=
  ∀ i : Instr, decode (encode i) = i

/-- The other direction: a `PROC` word is the encoding of its command; any other word has the meaning of its opcode
field alone and the canonical word with zeros. -/
def Obligations.EncodeInvertsDecode : Prop :=
  (∀ w : CmdWord, opField w = 1#2 → encode (decode w) = w) ∧
  (∀ w w' : CmdWord, opField w ≠ 1#2 → opField w = opField w' → decode w = decode w') ∧
  (∀ w : CmdWord, opField w ≠ 1#2 → encode (decode w) = opField w ++ 0#70)

/-- R43: every word matches exactly one row of the match and mask list, the row of the command it decodes to. -/
def Obligations.EveryWordMatchesOneRow : Prop :=
  ∀ w : CmdWord, ∃ r ∈ opcodeRows, r.hits w = true ∧ r.mnemonic = mnemonicOf (decode w) ∧
    ∀ r' ∈ opcodeRows, r'.hits w = true → r' = r

/-- R44: sample `b` is bits `10b+9 : 10b`, as an unsigned integer used as it is. -/
def Obligations.SamplesStandWhereTheFormatSays : Prop :=
  ∀ w : CmdWord, opField w = 1#2 → ∃ s0 s1 s2 s3 s4 s5 s6 : Sample,
    decode w = .proc s0 s1 s2 s3 s4 s5 s6 ∧
    s0.toNat = w.toNat % 1024 ∧ s1.toNat = w.toNat / 2 ^ 10 % 1024 ∧ s2.toNat = w.toNat / 2 ^ 20 % 1024 ∧
    s3.toNat = w.toNat / 2 ^ 30 % 1024 ∧ s4.toNat = w.toNat / 2 ^ 40 % 1024 ∧ s5.toNat = w.toNat / 2 ^ 50 % 1024 ∧
    s6.toNat = w.toNat / 2 ^ 60 % 1024

/-- R48: a `PROC` line has a word exactly when it has seven operands, each 0..1023, and that word is
`(1 << 70) | (s6 << 60) | … | s0`; `NOP` and `RST` have zeros in the frame field. -/
def Obligations.AssemblerEncodesCommandLines : Prop :=
  assembleCmd .nop = some 0x000000000000000000#72 ∧
  assembleCmd .rst = some 0x800000000000000000#72 ∧
  (∀ ops : List Nat, ¬ (ops.length = 7 ∧ ∀ n ∈ ops, n ≤ 1023) → assembleCmd (.proc ops) = none) ∧
  (∀ n0 n1 n2 n3 n4 n5 n6 : Nat, (∀ n ∈ [n0, n1, n2, n3, n4, n5, n6], n ≤ 1023) →
    assembleCmd (.proc [n0, n1, n2, n3, n4, n5, n6]) =
      some (BitVec.ofNat 72 (2 ^ 70 + n6 * 2 ^ 60 + n5 * 2 ^ 50 + n4 * 2 ^ 40 + n3 * 2 ^ 30 + n2 * 2 ^ 20 +
        n1 * 2 ^ 10 + n0)))

/-- R49: `.rep N` expands to `N` consecutive copies of its lines; an item list with such a block is assembled like the
list with the copies written out; `N` is positive. -/
def Obligations.RepeatExpandsToCopies : Prop :=
  (∀ (n : Nat) (body : List AsmCmd) (rest : List AsmItem), 0 < n →
    assembleItems (.rep n body :: rest) =
      assembleItems ((List.replicate n (body.map AsmItem.cmd)).flatten ++ rest)) ∧
  ∀ body : List AsmCmd, assembleItem (.rep 0 body) = none

/-- R45: "the assembler refuses to produce" a reserved word: every word of an assembled text is the canonical word of a
well-formed command. -/
def Obligations.AssemblerProducesOnlyCommands : Prop :=
  ∀ (text : List Char) (ws : List CmdWord), assemble text = some ws →
    ∀ w ∈ ws, (decode w).wf = true ∧ encode (decode w) = w

/-! ### Arithmetic -/

/-- R62: the rounding of a fraction of units is the `rnd32` R62 writes over the rationals. -/
def Obligations.RoundingFollowsTheRationalRule : Prop :=
  ∀ (s zs : Bool) (num den : Nat), 0 < den →
    roundsTo ((if s then -1 else 1) * ((num : ℚ) / den) / 2 ^ 149) zs (rnd32 s num den zs)

/-- R63: `fadd`, every line of its table. -/
def Obligations.AdditionFollowsItsTable : Prop :=
  ∀ a b : F32,
    (isNaN a = true ∨ isNaN b = true → isNaN (fadd a b) = true) ∧
    (isInf a = true → isInf b = true → fsign a = fsign b → fadd a b = a) ∧
    (isInf a = true → isInf b = true → fsign a ≠ fsign b → isNaN (fadd a b) = true) ∧
    (isInf a = true → isFinite b = true → fadd a b = a) ∧
    (isFinite a = true → isInf b = true → fadd a b = b) ∧
    (isZero a = true → isZero b = true →
      fadd a b = if fsign a = true ∧ fsign b = true then 0x80000000#32 else 0x00000000#32) ∧
    (isFinite a = true → isFinite b = true → ¬ (isZero a = true ∧ isZero b = true) → val a + val b = 0 →
      fadd a b = 0x00000000#32) ∧
    (isFinite a = true → isFinite b = true → val a + val b ≠ 0 → roundsTo (val a + val b) false (fadd a b))

/-- R64: `fsub` adds the negation, and the four consequences R64 lists. -/
def Obligations.SubtractionAddsTheNegation : Prop :=
  (∀ a b : F32, fsub a b = fadd a (fneg b)) ∧
  (∀ b : F32, fsign (fneg b) = !fsign b ∧ fexp (fneg b) = fexp b ∧ ffrac (fneg b) = ffrac b) ∧
  (∀ x : F32, isFinite x = true → fsub x x = posZero) ∧
  (∀ a : F32, isNaN a = false → fsub a posZero = a) ∧
  (∀ a : F32, isNaN a = false → a ≠ negZero → fadd a posZero = a) ∧
  fadd negZero posZero = posZero

/-- R65: `fmul`, every line of its table, and that multiplying by this hardware's powers of two is exact unless the
result falls below `2^-126`. -/
def Obligations.MultiplicationFollowsItsTable : Prop :=
  (∀ a b : F32,
    (isNaN a = true ∨ isNaN b = true → isNaN (fmul a b) = true) ∧
    ((isInf a = true ∧ isZero b = true) ∨ (isZero a = true ∧ isInf b = true) → isNaN (fmul a b) = true) ∧
    (isInf a = true → isNaN b = false → isZero b = false → fmul a b = infOf (fsign a ^^ fsign b)) ∧
    (isInf b = true → isNaN a = false → isZero a = false → fmul a b = infOf (fsign a ^^ fsign b)) ∧
    (isZero a = true → isFinite b = true → fmul a b = zeroOf (fsign a ^^ fsign b)) ∧
    (isZero b = true → isFinite a = true → fmul a b = zeroOf (fsign a ^^ fsign b)) ∧
    (isFinite a = true → isFinite b = true → isZero a = false → isZero b = false →
      roundsTo (val a * val b) (fsign a ^^ fsign b) (fmul a b))) ∧
  ∀ k ∈ [cfgLsa.aAvg, cfgLsa.aS1, cfgLsa.aS2, cfgLsa.cutLo, cfgLsa.cutHi, one, 0x3F000000#32],
    ∀ x : F32, isFinite x = true → isFinite (fmul k x) = true → (1 : ℚ) / 2 ^ 126 ≤ |val k * val x| →
      val (fmul k x) = val k * val x

/-- R66: `fdiv`, every line of its table. -/
def Obligations.DivisionFollowsItsTable : Prop :=
  ∀ a b : F32,
    (isNaN a = true ∨ isNaN b = true → isNaN (fdiv a b) = true) ∧
    (isInf a = true → isInf b = true → isNaN (fdiv a b) = true) ∧
    (isZero a = true → isZero b = true → isNaN (fdiv a b) = true) ∧
    (isInf a = true → isFinite b = true → fdiv a b = infOf (fsign a ^^ fsign b)) ∧
    (isFinite a = true → isInf b = true → fdiv a b = zeroOf (fsign a ^^ fsign b)) ∧
    (isFinite a = true → isZero a = false → isZero b = true → fdiv a b = infOf (fsign a ^^ fsign b)) ∧
    (isZero a = true → isFinite b = true → isZero b = false → fdiv a b = zeroOf (fsign a ^^ fsign b)) ∧
    (isFinite a = true → isFinite b = true → isZero a = false → isZero b = false →
      roundsTo (val a / val b) (fsign a ^^ fsign b) (fdiv a b))

/-- R67: the comparisons: false on a NaN, by value on finite words, infinities at the ends. -/
def Obligations.ComparisonsFollowTheOrder : Prop :=
  ∀ a b : F32,
    (isNaN a = true ∨ isNaN b = true → flt a b = false ∧ fle a b = false) ∧
    (isFinite a = true → isFinite b = true → (flt a b = true ↔ val a < val b)) ∧
    (isInf a = true → isFinite b = true → (flt a b = true ↔ fsign a = true) ∧ (flt b a = true ↔ fsign a = false)) ∧
    (isInf a = true → isInf b = true → (flt a b = true ↔ fsign a = true ∧ fsign b = false)) ∧
    (isNaN a = false → isNaN b = false → (fle a b = true ↔ flt b a = false))

/-- R68 and R69: `fmax` answers its first operand exactly when the second is less, and `isFinite` is the exponent
test. -/
def Obligations.MaximumAndFinitenessTests : Prop :=
  (∀ a b : F32, (flt b a = true → fmax a b = a) ∧ (flt b a = false → fmax a b = b)) ∧
  (∀ a b : F32, isNaN a = true ∨ isNaN b = true → fmax a b = b) ∧
  ∀ a : F32, (isFinite a = true ↔ a.extractLsb' 23 8 ≠ 255#8) ∧
    (isFinite a = true ↔ isNaN a = false ∧ isInf a = false)

/-- R70: `i2f(n)` is the word with value exactly `n`, and `i2f(0)` is +0. -/
def Obligations.SampleConversionIsExact : Prop :=
  i2f 0 = 0x00000000#32 ∧ ∀ n : Sample, isFinite (i2f n) = true ∧ val (i2f n) = (n.toNat : ℚ)

/-- R71: `f2i_trunc(a)` is `floor(val(a))` for a finite `a` with `1 <= val(a) < 255`. -/
def Obligations.TruncationIsTheFloor : Prop :=
  ∀ a : F32, isFinite a = true → 1 ≤ val a → val a < 255 → ((f2iTrunc a).toNat : ℤ) = ⌊val a⌋

/-! ### Constants -/

/-- R17: the 38 words of the table in the order of the index, and LS's constraints on them. -/
def Obligations.ConstantTableIsTheSpecs : Prop :=
  cfgEntries cfgLsa =
    [0xBC950000#32, 0x3F020000#32, 0x3D680000#32, 0xB9640000#32, 0x3D790000#32, 0x402F0000#32,
     0xB6110000#32, 0x3BC70000#32, 0x40C20000#32,
     0x3F800000#32, 0#32, 0#32, 0x3F800000#32, 0#32, 0#32, 0x3F000000#32, 0x3F000000#32, 0#32,
     0#32, 0x3F800000#32, 0#32, 0#32, 0x3F000000#32, 0x3F000000#32, 0#32, 0#32, 0x3F800000#32,
     0#32, 0#32, 0x3F800000#32,
     0x3F800000#32, 0x3B800000#32, 0x3E800000#32, 0x3D800000#32, 0x3F7F8000#32, 0x3F000000#32, 0x40000000#32,
     0x43A00000#32] ∧
  cfgAdmissible cfgLsa = true

/-- R18: the derived constants, by the formula, have the words of the table, each operation but the division being
exact, and `0 < LO < HI`. -/
def Obligations.DerivedConstantsAreTheSpecs : Prop :=
  (∀ cfg c,
    alloc cfg c =
      fadd (fadd (fadd (fadd (fadd (fadd (fadd posZero (cfg.weight.b0.get c)) (cfg.weight.b1.get c))
        (cfg.weight.b2.get c)) (cfg.weight.b3.get c)) (cfg.weight.b4.get c)) (cfg.weight.b5.get c))
        (cfg.weight.b6.get c) ∧
    cutLow cfg c = fmul cfg.cutLo (alloc cfg c) ∧ cutHigh cfg c = fmul cfg.cutHi (alloc cfg c) ∧
    slope cfg c = fdiv 0x3F800000#32 (fmul (cutHigh cfg c) (fsub (cutHigh cfg c) (cutLow cfg c)))) ∧
  (∀ c ∈ [ChanId.red, ChanId.blue],
    alloc cfgLsa c = 0x40200000#32 ∧ cutLow cfgLsa c = 0x3FA00000#32 ∧ cutHigh cfgLsa c = 0x40A00000#32 ∧
    fmul (cutHigh cfgLsa c) (fsub (cutHigh cfgLsa c) (cutLow cfgLsa c)) = 0x41960000#32 ∧
    slope cfgLsa c = 0x3D5A740E#32) ∧
  (alloc cfgLsa .green = 0x40000000#32 ∧ cutLow cfgLsa .green = 0x3F800000#32 ∧
    cutHigh cfgLsa .green = 0x40800000#32 ∧
    fmul (cutHigh cfgLsa .green) (fsub (cutHigh cfgLsa .green) (cutLow cfgLsa .green)) = 0x41400000#32 ∧
    slope cfgLsa .green = 0x3DAAAAAB#32) ∧
  (∀ c ∈ [ChanId.red, ChanId.blue],
    val (alloc cfgLsa c) = 5 / 2 ∧ val (cutLow cfgLsa c) = 5 / 4 ∧ val (cutHigh cfgLsa c) = 5 ∧
    val (fmul (cutHigh cfgLsa c) (fsub (cutHigh cfgLsa c) (cutLow cfgLsa c))) = 75 / 4 ∧
    val (slope cfgLsa c) = 7158279 / 134217728) ∧
  (val (alloc cfgLsa .green) = 2 ∧ val (cutLow cfgLsa .green) = 1 ∧ val (cutHigh cfgLsa .green) = 4 ∧
    val (fmul (cutHigh cfgLsa .green) (fsub (cutHigh cfgLsa .green) (cutLow cfgLsa .green))) = 12 ∧
    val (slope cfgLsa .green) = 11184811 / 134217728) ∧
  ∀ c, flt posZero (cutLow cfgLsa c) = true ∧ flt (cutLow cfgLsa c) (cutHigh cfgLsa c) = true

/-! ### Compression and mixing -/

/-- R91 and R92: +0 below 2; else `((a*x)*x + b*x) + c` with the coefficients of the sample's segment, for any table of
constants. -/
def Obligations.CompressionFollowsItsSegments : Prop :=
  ∀ (cfg : Cfg) (s : Sample),
    (s.toNat < 2 → compress cfg s = 0x00000000#32) ∧
    (2 ≤ s.toNat → s.toNat < 10 →
      compress cfg s =
        fadd (fadd (fmul (fmul cfg.segA.a (i2f s)) (i2f s)) (fmul cfg.segA.b (i2f s))) cfg.segA.c) ∧
    (10 ≤ s.toNat → s.toNat < 100 →
      compress cfg s =
        fadd (fadd (fmul (fmul cfg.segB.a (i2f s)) (i2f s)) (fmul cfg.segB.b (i2f s))) cfg.segB.c) ∧
    (100 ≤ s.toNat →
      compress cfg s =
        fadd (fadd (fmul (fmul cfg.segC.a (i2f s)) (i2f s)) (fmul cfg.segC.b (i2f s))) cfg.segC.c)

/-- Derived (41_compress_mix.md, the properties of the curve): non-decreasing everywhere, strictly increasing from 1 on,
every value in `[+0, 0x4120393E]` and never `-0`. -/
def Obligations.CompressionIsIncreasingAndBounded : Prop :=
  (∀ s : Sample, s.toNat < 1023 → fle (compress cfgLsa s) (compress cfgLsa (s + 1)) = true ∧
    (1 ≤ s.toNat → flt (compress cfgLsa s) (compress cfgLsa (s + 1)) = true)) ∧
  ∀ s : Sample, inPosRange (compress cfgLsa s) 0x4120393E#32

/-- Derived (41_compress_mix.md section 2 and 40_numerics.md section 4): below 100 no operation of the compressor rounds,
so its word has the value of the exact-rational reading; and that reading's `SLOPE` is 4/75, 1/12, 4/75. -/
def Obligations.CompressionIsExactBelow100 : Prop :=
  (∀ s : Sample, s.toNat < 100 → isFinite (compress cfgLsa s) = true ∧ val (compress cfgLsa s) = exactCompress cfgLsa s) ∧
  exactSlope cfgLsa .red = 4 / 75 ∧ exactSlope cfgLsa .green = 1 / 12 ∧ exactSlope cfgLsa .blue = 4 / 75

/-- R94: from the bias, the seven weighted values in ascending band order, none skipped, for any table of constants. -/
def Obligations.MixerAddsBandsInOrder : Prop :=
  ∀ (cfg : Cfg) (l : Bands F32) (c : ChanId),
    mix cfg l c =
      fadd (fadd (fadd (fadd (fadd (fadd (fadd cfg.bias (fmul (cfg.weight.b0.get c) l.b0))
        (fmul (cfg.weight.b1.get c) l.b1)) (fmul (cfg.weight.b2.get c) l.b2)) (fmul (cfg.weight.b3.get c) l.b3))
        (fmul (cfg.weight.b4.get c) l.b4)) (fmul (cfg.weight.b5.get c) l.b5)) (fmul (cfg.weight.b6.get c) l.b6)

/-- Derived (41_compress_mix.md, the range of `xt`): `1 <= xt <= XMAX[c]` for every frame, with `xt = 1` exactly when every band
of nonzero weight has a sample of 0 or 1. -/
def Obligations.MixerOutputRange : Prop :=
  ∀ (f : Frame) (c : ChanId),
    fle one (mix cfgLsa (compressFrame cfgLsa f) c) = true ∧
    fle (mix cfgLsa (compressFrame cfgLsa f) c) (xmax c) = true ∧
    (mix cfgLsa (compressFrame cfgLsa f) c = one ↔
      ∀ p ∈ List.zip cfgLsa.weight.toList f.toList, isZero (p.1.get c) = false → p.2.toNat < 2)

/-! ### Filters -/

/-- Derived (42_average_smooth.md, corner case 1 of the smoothing step): every finite value is a fixed point, but `-0`
goes to `+0`. -/
def Obligations.SmoothingHasItsFixedPoints : Prop :=
  ∀ x a : F32, isFinite x = true → isFinite a = true → fsign a = false →
    ema x x a = if x = negZero then posZero else x

/-- Derived (42_average_smooth.md section 4, "without overshoot"): with this hardware's three constants a smoothing step
ends between the filter's value and its input. -/
def Obligations.SmoothingNeverOvershoots : Prop :=
  ∀ a ∈ [cfgLsa.aAvg, cfgLsa.aS1, cfgLsa.aS2], ∀ s x : F32,
    isFinite s = true → isFinite x = true → isFinite (fsub x s) = true →
    (fle s x = true → fle s (ema s x a) = true ∧ fle (ema s x a) x = true) ∧
    (fle x s = true → fle x (ema s x a) = true ∧ fle (ema s x a) s = true)

/-- Derived (43_envelope_gain.md, the envelope invariants): the new envelope is not negative, not below the new
smoothed value, above the old envelope only when it is the new smoothed value, and otherwise not above it. -/
def Obligations.EnvelopeFollowsPeaks : Prop :=
  ∀ env s11 : F32, isFinite env = true → fsign env = false → isFinite s11 = true →
    let dm := fmul env cfgLsa.decay
    let env1 := fmax s11 dm
    fsign env1 = false ∧ fle s11 env1 = true ∧ (flt env env1 = true → env1 = s11) ∧
    (env1 = dm → fle env1 env = true)

/-- Derived (43_envelope_gain.md, the envelope's corner case 5): the decay lowers every envelope above `0x00000100` and
leaves the others where they are. -/
def Obligations.EnvelopeDecayStallsOnlyAtSubnormals : Prop :=
  ∀ env : F32, isFinite env = true → fsign env = false →
    (0x100 < env.toNat → flt (fmul env cfgLsa.decay) env = true) ∧
    (env.toNat ≤ 0x100 → fmul env cfgLsa.decay = env)

/-- R112: the clip gives a temporary; the register keeps the unclipped value. -/
def Obligations.ClipLeavesTheRegisterAlone : Prop :=
  ∀ (cfg : Cfg) (c : ChanId) (ch : Channel) (xt : F32),
    let t := temps cfg c ch xt
    t.p = (if flt t.s11 0x00000000#32 then 0x00000000#32 else t.s11) ∧
    (commits t = true → (channelStep cfg c ch xt).s1 = t.s11)

/-- R113 and R114: the zero guard and the three regions, tested in this order, for any table of constants. -/
def Obligations.GainHasItsRegions : Prop :=
  ∀ (cfg : Cfg) (c : ChanId) (m : F32),
    (fle m 0x00000000#32 = true → gain cfg c m = 0x00000000#32) ∧
    (fle m 0x00000000#32 = false → flt m (cutLow cfg c) = true → gain cfg c m = 0x00000000#32) ∧
    (fle m 0x00000000#32 = false → flt m (cutLow cfg c) = false → flt m (cutHigh cfg c) = true →
      gain cfg c m = fmul (fsub m (cutLow cfg c)) (slope cfg c)) ∧
    (fle m 0x00000000#32 = false → flt m (cutLow cfg c) = false → flt m (cutHigh cfg c) = false →
      gain cfg c m = fdiv 0x3F800000#32 m)

/-- Derived (43_envelope_gain.md section 3, the boundaries of the gain): the ramp is +0 at `LO` and at `HI` gives the
same word as `1/HI`; the gain rises on the ramp, falls above it, and is never above `1/HI`. -/
def Obligations.GainRisesThenFalls : Prop :=
  ∀ c : ChanId,
    gain cfgLsa c (cutLow cfgLsa c) = posZero ∧
    fmul (fsub (cutHigh cfgLsa c) (cutLow cfgLsa c)) (slope cfgLsa c) = fdiv one (cutHigh cfgLsa c) ∧
    (∀ m m' : F32, fle (cutLow cfgLsa c) m = true → fle m m' = true → flt m' (cutHigh cfgLsa c) = true →
      fle (gain cfgLsa c m) (gain cfgLsa c m') = true) ∧
    (∀ m m' : F32, fle (cutHigh cfgLsa c) m = true → fle m m' = true →
      fle (gain cfgLsa c m') (gain cfgLsa c m) = true) ∧
    ∀ m : F32, isNaN m = false → inPosRange (gain cfgLsa c m) (fdiv one (cutHigh cfgLsa c))

/-- Derived (43_envelope_gain.md section 4, the range of `n`): for a clipped deviation between +0 and the envelope the
normalized value is in `[+0, 321]`. -/
def Obligations.NormalizedValueIsBounded : Prop :=
  ∀ (c : ChanId) (p m : F32), isFinite m = true → fsign p = false → fle p m = true →
    inPosRange (fmul (fmul p (gain cfgLsa c m)) cfgLsa.maxGain) bound321

/-- R126: 1 below 1, 255 from 255 on, the integer part between; monotone. -/
def Obligations.QuantizerClampsTheIntegerPart : Prop :=
  (∀ s : F32, isFinite s = true →
    ((quant s).toNat : ℤ) = if val s < 1 then 1 else if 255 ≤ val s then 255 else ⌊val s⌋) ∧
  ∀ s s' : F32, isFinite s = true → isFinite s' = true → fle s s' = true → (quant s).toNat ≤ (quant s').toNat

/-- R130 and R127: a channel commits its four tentative values, unclamped, and the quantized output together, or keeps
all five registers; the test is that the input and the four values are finite. -/
def Obligations.CommitIsAllOrNothing : Prop :=
  ∀ (cfg : Cfg) (c : ChanId) (ch : Channel) (xt : F32),
    let t := temps cfg c ch xt
    (isFinite t.xt = true ∧ isFinite t.avg1 = true ∧ isFinite t.s11 = true ∧ isFinite t.env1 = true ∧
        isFinite t.s21 = true →
      channelStep cfg c ch xt = { avg := t.avg1, s1 := t.s11, env := t.env1, s2 := t.s21, out := quant t.s21 }) ∧
    (¬ (isFinite t.xt = true ∧ isFinite t.avg1 = true ∧ isFinite t.s11 = true ∧ isFinite t.env1 = true ∧
        isFinite t.s21 = true) →
      channelStep cfg c ch xt = ch)

/-! ### Channels -/

/-- R15: a channel's new registers depend on no other channel's registers. -/
def Obligations.ChannelsArePrivate : Prop :=
  ∀ (c : ChanId) (i : Instr) (s s' t t' : State), s.chan c = s'.chan c → exec i s = .next t → exec i s' = .next t' →
    t.chan c = t'.chan c

/-- R145: the three channels may be computed one after another in any order, with the same result. -/
def Obligations.ChannelOrderDoesNotMatter : Prop :=
  ∀ (cfg : Cfg) (f : Frame) (order : List ChanId) (s : State), order.Perm [.red, .green, .blue] →
    order.foldl (fun acc c => processChannel cfg (compressFrame cfg f) c acc) s = processFrame cfg f s

/-! ### Invariants -/

/-- The invariants of R16 hold at reset. -/
def Obligations.InvariantsHoldAtReset : Prop := StateInv State.reset ∧ StateBounded State.reset

/-- Derived (44_output_stage.md section 3: the guard makes invariant 1 hold "for *any* `CFG`"): a channel's step keeps
the invariants whatever the constants and whatever the input, if the decay factor is not negative. -/
def Obligations.ChannelStepKeepsInvariantsForAnyConstants : Prop :=
  ∀ (cfg : Cfg) (c : ChanId) (ch : Channel) (xt : F32), fsign cfg.decay = false → ChannelInv ch →
    ChannelInv (channelStep cfg c ch xt)

/-- Derived (10_state.md section 5): every step from any state with the invariants, reachable or not, keeps them. -/
def Obligations.EveryStepKeepsInvariants : Prop :=
  ∀ s t : State, StateInv s → step s = .next t → StateInv t

/-- Derived (42_average_smooth.md section 4 and 44_output_stage.md section 3): every step keeps the registers in their
ranges, and within them the non-finite guard never fires: every frame commits all three channels. -/
def Obligations.EveryStepKeepsRangesAndCommits : Prop :=
  (∀ s t : State, StateBounded s → step s = .next t → StateBounded t) ∧
  ∀ (s : State) (f : Frame) (c : ChanId), StateBounded s →
    commits (temps cfgLsa c (s.chan c) (mix cfgLsa (compressFrame cfgLsa f) c)) = true

/-- Derived (60_exceptions.md section 1, the guards' reachability): the zero guard never acts. A channel fresh from reset
or with a positive envelope has a positive updated envelope, and every step keeps that. -/
def Obligations.ZeroGuardNeverActs : Prop :=
  (∀ (f : Frame) (c : ChanId) (ch : Channel), ChannelBounded c ch → Awake ch →
    fle (temps cfgLsa c ch (mix cfgLsa (compressFrame cfgLsa f) c)).env1 posZero = false) ∧
  ∀ s t : State, StateBounded s → everyChannel (fun _ ch => Awake ch) s → step s = .next t →
    everyChannel (fun _ ch => Awake ch) t

/-- Derived (70_reset_and_hazards.md section 1 and 42_average_smooth.md, corner case 3 of the smoothing step): no frame
puts `AVG`, a positive `ENV` or a positive `S2` at zero: after a `PROC` the average is positive, and a positive envelope
or output filter stays positive. Nothing is said of `S1`: it is centred on zero, and a frame can bring it there. -/
def Obligations.NoFrameZeroesAverageEnvelopeOrOutputFilter : Prop :=
  ∀ (f : Frame) (c : ChanId) (ch : Channel), ChannelBounded c ch →
    let ch' := channelStep cfgLsa c ch (mix cfgLsa (compressFrame cfgLsa f) c)
    isPositive ch'.avg = true ∧ (isPositive ch.env = true → isPositive ch'.env = true) ∧
    (isPositive ch.s2 = true → isPositive ch'.s2 = true)

/-- R132: after any transactions from reset every output is in 1..255; the invariants and the ranges hold there too. -/
def Obligations.EveryReachableOutputIsInRange : Prop :=
  ∀ (es : List PortEvent) (t : State), runEvents es State.reset = .next t →
    (∀ c, 1 ≤ (t.outputs.get c).toNat ∧ (t.outputs.get c).toNat ≤ 255) ∧ StateInv t ∧ StateBounded t

/-- R150: a run of transactions without a reserved word never stops. -/
def Obligations.RunsWithoutReservedWordsComplete : Prop :=
  ∀ (es : List PortEvent) (s : State), noReserved es → ∃ t, runEvents es s = .next t

/-! ### The ports -/

/-- R166 and R168: while `rst_n` is low the block is in the reset state, ready is low and nothing is accepted, whatever
the registers held and whatever command was in progress; when it goes high again the block is ready. -/
def Obligations.ResetEdgeWorksFromAnyState : Prop :=
  ∀ (b : Block) (p : Pins), p.rstN = false →
    cmdReady b p = false ∧ acceptedWord b p = none ∧
    ∃ b', clockEdge b p = .next b' ∧ b'.busy = none ∧ (∀ c, b'.core.chan c = State.reset.chan c) ∧
      ∀ q : Pins, q.rstN = true → cmdReady b' q = true

/-- Derived (30_encoding.md section 1, command acceptance): an accepted command shows nothing until its latency has
passed, and then its whole effect, with the block ready. -/
def Obligations.AcceptedCommandCompletesAtOnce : Prop :=
  ∀ (b : Block) (p : Pins) (w : CmdWord), acceptedWord b p = some w →
    (∀ ps : List Pins, (∀ q ∈ ps, q.rstN = true) → ps.length < latency w →
      runClock (p :: ps) b = .next { core := b.core, busy := some { word := w, left := latency w - ps.length } }) ∧
    ∀ (ps : List Pins) (t : State), (∀ q ∈ ps, q.rstN = true) → ps.length = latency w →
      runEvent (.command w) b.core = .next t → runClock (p :: ps) b = .next { core := t, busy := none }

/-- Derived (30_encoding.md section 1): a word presented while a command is in progress has no effect, and the
outputs change only in an edge that ends a command or resets (R50's "they then still show the values from before the
command"). -/
def Obligations.BusyBlockIgnoresThePort : Prop :=
  (∀ (b : Block) (p q : Pins), b.busy ≠ none → p.rstN = true → q.rstN = true →
    clockEdge b p = clockEdge b q ∧ acceptedWord b p = none) ∧
  ∀ (b b' : Block) (p : Pins), clockEdge b p = .next b' → edgeEvent b p = none → b'.outputs = b.outputs ∧ b'.core = b.core

/-- Derived (30_encoding.md section 1: behaviour "is a function of its state at the start and the command sequence
alone"): between two ready blocks with no reset the registers are the fold of the accepted
words. Which edge accepts and which completes is the model's reading (log 10), and the latencies are free (log 5). -/
def Obligations.AcceptedWordsDetermineTheRun : Prop :=
  ∀ (ps : List Pins) (b b' : Block), (∀ p ∈ ps, p.rstN = true) → b.busy = none → b'.busy = none →
    runClock ps b = .next b' → runCommands (acceptedWords ps b) b.core = .next b'.core

/-- Derived (30_encoding.md section 1, 70_reset_and_hazards.md section 1): every run of clock edges, resets and abandoned
commands among them, is a run of the transactions it ends, in order, a refusal included. Which edge is which, and that a
reserved word is refused at the edge where it would complete, is the model's choice (log 10); that it is refused at all
is log 2. -/
def Obligations.ClockEdgesRefineTransactions : Prop :=
  ∀ (ps : List Pins) (b : Block),
    (∀ b', runClock ps b = .next b' → runEvents (edgeEvents ps b) b.core = .next b'.core) ∧
    (∀ r, runClock ps b = .refused r → runEvents (edgeEvents ps b) b.core = .refused r)
end

