-- ==== Sys2Proof/Laws/Numerics.lean ====
section
/-! SUPPORT. The fields of a packed word, the classes of R60, and what each operation does with a NaN. -/

namespace Sys2Proof.Machine

theorem pack_toNat (s : Bool) (e f : Nat) :
    (pack s e f).toNat = s.toNat * 2 ^ 31 + (e % 256) * 2 ^ 23 + f % 2 ^ 23 := by
  have h2 := Nat.shiftLeft_add_eq_or_of_lt (a := s.toNat) (b := e % 2 ^ 8) (i := 8) (Nat.mod_lt _ (by norm_num))
  have h1 := Nat.shiftLeft_add_eq_or_of_lt (a := s.toNat <<< 8 + e % 2 ^ 8) (b := f % 2 ^ 23)
    (i := 23) (Nat.mod_lt _ (by norm_num))
  rw [pack, BitVec.toNat_append, BitVec.toNat_append, BitVec.toNat_ofNat, BitVec.toNat_ofNat, BitVec.toNat_ofBool,
    ← h2, ← h1, Nat.shiftLeft_eq, Nat.shiftLeft_eq]
  omega

theorem fexp_eq (w : F32) : fexp w = w.toNat / 2 ^ 23 % 256 := by
  simp [fexp, BitVec.extractLsb'_toNat, Nat.shiftRight_eq_div_pow]

theorem ffrac_eq (w : F32) : ffrac w = w.toNat % 2 ^ 23 := by
  simp [ffrac, BitVec.extractLsb'_toNat]

theorem fsign_eq (w : F32) : fsign w = decide (2 ^ 31 ≤ w.toNat) := by
  rw [fsign, ← BitVec.msb_eq_getLsbD_last (x := w), BitVec.msb_eq_decide]

theorem fexp_lt (w : F32) : fexp w < 256 := by
  rw [fexp_eq]; exact Nat.mod_lt _ (by norm_num)

theorem ffrac_lt (w : F32) : ffrac w < 2 ^ 23 := by
  rw [ffrac_eq]; exact Nat.mod_lt _ (by norm_num)

@[simp] theorem fsign_pack (s : Bool) (e f : Nat) : fsign (pack s e f) = s := by
  have he := Nat.mod_lt e (y := 256) (by norm_num)
  have hf := Nat.mod_lt f (y := 2 ^ 23) (by norm_num)
  rw [fsign_eq, pack_toNat]
  cases s <;> (simp; try omega)

theorem fexp_pack (s : Bool) (e f : Nat) : fexp (pack s e f) = e % 256 := by
  have he := Nat.mod_lt e (y := 256) (by norm_num)
  have hf := Nat.mod_lt f (y := 2 ^ 23) (by norm_num)
  rw [fexp_eq, pack_toNat]
  cases s <;> (simp; try omega)

theorem ffrac_pack (s : Bool) (e f : Nat) : ffrac (pack s e f) = f % 2 ^ 23 := by
  rw [ffrac_eq, pack_toNat]
  cases s <;> (simp; try omega)

/-- A word is its three fields. -/
theorem pack_fields (w : F32) : pack (fsign w) (fexp w) (ffrac w) = w := by
  apply BitVec.eq_of_toNat_eq
  have h := w.isLt
  rw [pack_toNat, fexp_eq, ffrac_eq, fsign_eq]
  by_cases hs : 2 ^ 31 ≤ w.toNat
  · rw [decide_eq_true hs, Bool.toNat_true]; omega
  · rw [decide_eq_false hs, Bool.toNat_false]; omega

/-- Whatever the free value is, a NaN word is a NaN (R72). -/
@[simp] theorem isNaN_nanWord (op : FOp) (a b : F32) : isNaN (nanWord op a b) = true := by
  have hb : ∀ x : BitVec 23, x.toNat < 2 ^ 23 := fun x => x.isLt
  have h := hb ((Config.nanBits op a b).extractLsb' 0 23)
  simp only [isNaN, nanWord, fexp_pack, ffrac_pack]
  split
  · rfl
  · next hz => rw [Nat.mod_eq_of_lt h]; simpa using hz

/-- The five classes of R60 by two tests. -/
theorem not_isFinite_iff (w : F32) : isFinite w = false ↔ isNaN w = true ∨ isInf w = true := by
  simp only [isFinite, isNaN, isInf]
  by_cases he : fexp w = 255 <;> by_cases hf : ffrac w = 0 <;> simp [he, hf]

theorem isFinite_iff (w : F32) : isFinite w = true ↔ isNaN w = false ∧ isInf w = false := by
  simp only [isFinite, isNaN, isInf]
  by_cases he : fexp w = 255 <;> by_cases hf : ffrac w = 0 <;> simp [he, hf]

theorem isNaN_of_isFinite {w : F32} (h : isFinite w = true) : isNaN w = false := ((isFinite_iff w).1 h).1
theorem isInf_of_isFinite {w : F32} (h : isFinite w = true) : isInf w = false := ((isFinite_iff w).1 h).2

theorem isNaN_fadd_left {a : F32} (b : F32) (h : isNaN a = true) : isNaN (fadd a b) = true := by simp [fadd, h]
theorem isNaN_fadd_right (a : F32) {b : F32} (h : isNaN b = true) : isNaN (fadd a b) = true := by simp [fadd, h]
theorem isNaN_fmul_left {a : F32} (b : F32) (h : isNaN a = true) : isNaN (fmul a b) = true := by simp [fmul, h]
theorem isNaN_fmul_right (a : F32) {b : F32} (h : isNaN b = true) : isNaN (fmul a b) = true := by simp [fmul, h]
theorem isNaN_fdiv_left {a : F32} (b : F32) (h : isNaN a = true) : isNaN (fdiv a b) = true := by simp [fdiv, h]
theorem isNaN_fdiv_right (a : F32) {b : F32} (h : isNaN b = true) : isNaN (fdiv a b) = true := by simp [fdiv, h]

/-- A finite value in units is its rational value times `2^149` (R60). -/
theorem val_mul (w : F32) : val w * 2 ^ 149 = (units w : ℚ) := by
  rw [val, div_mul_cancel₀ _ (by positivity)]

/-- On finite words the order of R67 is the order of the values in units. -/
theorem flt_finite {a b : F32} (ha : isFinite a = true) (hb : isFinite b = true) :
    flt a b = decide (units a < units b) := by
  simp [flt, orderKey, isNaN_of_isFinite ha, isNaN_of_isFinite hb, isInf_of_isFinite ha, isInf_of_isFinite hb]

theorem fle_finite {a b : F32} (ha : isFinite a = true) (hb : isFinite b = true) :
    fle a b = decide (units a ≤ units b) := by
  rw [fle, flt_finite hb ha, isNaN_of_isFinite ha, isNaN_of_isFinite hb]
  by_cases h : units b < units a
  · simp [h]
  · simp [h, not_lt.1 h]

end Sys2Proof.Machine
end

