-- ==== Sys2Proof/Laws/State.lean ====
section
/-! SUPPORT. One lemma per field per update of the state, and the channels of each register operation. -/

namespace Sys2Proof.Machine

@[simp] theorem Rgb.get_red {α : Type} (v : Rgb α) : v.get .red = v.red := rfl
@[simp] theorem Rgb.get_green {α : Type} (v : Rgb α) : v.get .green = v.green := rfl
@[simp] theorem Rgb.get_blue {α : Type} (v : Rgb α) : v.get .blue = v.blue := rfl

@[simp] theorem State.chan_red (s : State) : s.chan .red = s.red := rfl
@[simp] theorem State.chan_green (s : State) : s.chan .green = s.green := rfl
@[simp] theorem State.chan_blue (s : State) : s.chan .blue = s.blue := rfl

@[simp] theorem Channel.reset_avg : Channel.reset.avg = 0#32 := rfl
@[simp] theorem Channel.reset_s1 : Channel.reset.s1 = 0#32 := rfl
@[simp] theorem Channel.reset_env : Channel.reset.env = 0#32 := rfl
@[simp] theorem Channel.reset_s2 : Channel.reset.s2 = 0#32 := rfl
@[simp] theorem Channel.reset_out : Channel.reset.out = 1#8 := rfl

@[simp] theorem State.reset_chan (c : ChanId) : State.reset.chan c = Channel.reset := by cases c <;> rfl
@[simp] theorem State.reset_port : State.reset.port = [] := rfl

@[simp] theorem State.setChan_port (s : State) (c : ChanId) (ch : Channel) : (s.setChan c ch).port = s.port := by
  cases c <;> rfl
@[simp] theorem State.setChan_chan (s : State) (c : ChanId) (ch : Channel) : (s.setChan c ch).chan c = ch := by
  cases c <;> rfl
theorem State.setChan_chan_other (s : State) {c c' : ChanId} (ch : Channel) (h : c' ≠ c) :
    (s.setChan c ch).chan c' = s.chan c' := by
  cases c <;> cases c' <;> first | rfl | exact absurd rfl h

@[simp] theorem State.resetRegs_chan (s : State) (c : ChanId) : s.resetRegs.chan c = Channel.reset := by
  cases c <;> rfl
@[simp] theorem State.resetRegs_port (s : State) : s.resetRegs.port = s.port := rfl
@[simp] theorem State.resetRegs_resetRegs (s : State) : s.resetRegs.resetRegs = s.resetRegs := rfl

@[simp] theorem State.popPort_chan (s : State) (c : ChanId) : s.popPort.chan c = s.chan c := by cases c <;> rfl
@[simp] theorem State.popPort_port (s : State) : s.popPort.port = s.port.tail := rfl

@[simp] theorem State.withFetchWord_chan (s : State) (nbits w : Nat) (c : ChanId) :
    (s.withFetchWord nbits w).chan c = s.chan c := by cases c <;> rfl
@[simp] theorem State.withFetchWord_port (s : State) (nbits w : Nat) :
    (s.withFetchWord nbits w).port = .command (tableWord nbits w) :: s.port := rfl

@[simp] theorem State.outputs_get (s : State) (c : ChanId) : s.outputs.get c = (s.chan c).out := by cases c <;> rfl

@[simp] theorem processFrame_chan (cfg : Cfg) (f : Frame) (s : State) (c : ChanId) :
    (processFrame cfg f s).chan c = channelStep cfg c (s.chan c) (mix cfg (compressFrame cfg f) c) := by
  cases c <;> rfl
@[simp] theorem processFrame_port (cfg : Cfg) (f : Frame) (s : State) : (processFrame cfg f s).port = s.port := rfl

/-- Two states with the same channels and the same transactions to come are the same state. -/
theorem State.ext_chan {s t : State} (hc : ∀ c, s.chan c = t.chan c) (hp : s.port = t.port) : s = t := by
  obtain ⟨r, g, b, p⟩ := s
  obtain ⟨r', g', b', p'⟩ := t
  have h1 : r = r' := hc .red
  have h2 : g = g' := hc .green
  have h3 : b = b' := hc .blue
  have h4 : p = p' := hp
  subst h1 h2 h3 h4
  rfl

end Sys2Proof.Machine
end

