-- ==== Sys2Proof/Laws/Ops.lean ====
section
/-! SUPPORT. For each shared operation, once, everything it can do. -/

namespace Sys2Proof.Machine

/-- What a command can do: if it answers next `t`, it is one of these. -/
theorem exec_cases {i : Instr} {s t : State} (h : exec i s = .next t) :
    (i = .nop ∧ t = s) ∨
    (∃ s0 s1 s2 s3 s4 s5 s6, i = .proc s0 s1 s2 s3 s4 s5 s6 ∧
      t = processFrame cfgLsa (frameOf s0 s1 s2 s3 s4 s5 s6) s) ∨
    (i = .rst ∧ t = s.resetRegs) := by
  cases i with
  | nop => cases h; exact .inl ⟨rfl, rfl⟩
  | proc s0 s1 s2 s3 s4 s5 s6 => cases h; exact .inr (.inl ⟨s0, s1, s2, s3, s4, s5, s6, rfl, rfl⟩)
  | rst => cases h; exact .inr (.inr ⟨rfl, rfl⟩)
  | rsvd3 => cases h

/-- What a transaction can do. -/
theorem runEvent_cases {e : PortEvent} {s t : State} (h : runEvent e s = .next t) :
    t = s ∨ (∃ f : Frame, t = processFrame cfgLsa f s) ∨ t = s.resetRegs := by
  cases e with
  | command w =>
    rcases exec_cases h with ⟨-, rfl⟩ | ⟨s0, s1, s2, s3, s4, s5, s6, -, rfl⟩ | ⟨-, rfl⟩
    · exact .inl rfl
    · exact .inr (.inl ⟨_, rfl⟩)
    · exact .inr (.inr rfl)
  | hardReset => cases h; exact .inr (.inr rfl)

/-- A transaction leaves the transactions still to come alone. -/
theorem runEvent_port {e : PortEvent} {s t : State} (h : runEvent e s = .next t) : t.port = s.port := by
  rcases runEvent_cases h with rfl | ⟨f, rfl⟩ | rfl <;> rfl

/-- What a step can do. -/
theorem step_cases {s t : State} (h : step s = .next t) :
    (s.port = [] ∧ t = s) ∨ (∃ e es, s.port = e :: es ∧ runEvent e s.popPort = .next t) := by
  unfold step runPort at h
  split at h
  · next hp => cases h; exact .inl ⟨hp, rfl⟩
  · next e es hp => exact .inr ⟨e, es, hp, h⟩

/-- Commit writes all five registers, or none. -/
theorem commit_cases (ch : Channel) (t : Temps) :
    (commits t = true ∧ commit ch t = { avg := t.avg1, s1 := t.s11, env := t.env1, s2 := t.s21, out := quant t.s21 }) ∨
    (commits t = false ∧ commit ch t = ch) := by
  cases h : commits t <;> simp [commit, h]

/-- The commit condition, part by part. -/
theorem commits_iff (t : Temps) :
    commits t = true ↔ isFinite t.xt = true ∧ isFinite t.avg1 = true ∧ isFinite t.s11 = true ∧
      isFinite t.env1 = true ∧ isFinite t.s21 = true := by
  simp [commits, and_assoc]

/-- The larger of two, the second on a tie or a NaN. -/
theorem fmax_cases (a b : F32) : (flt b a = true ∧ fmax a b = a) ∨ (flt b a = false ∧ fmax a b = b) := by
  cases h : flt b a <;> simp [fmax, h]

/-- The clip answers +0 below zero and its operand elsewhere. -/
theorem clip_cases (x : F32) : (flt x posZero = true ∧ clip x = posZero) ∨ (flt x posZero = false ∧ clip x = x) := by
  cases h : flt x posZero <;> simp [clip, h]

/-- The regions of the gain. -/
theorem gain_cases (cfg : Cfg) (c : ChanId) (m : F32) :
    ((fle m posZero = true ∨ flt m (cutLow cfg c) = true) ∧ gain cfg c m = posZero) ∨
    (fle m posZero = false ∧ flt m (cutLow cfg c) = false ∧ flt m (cutHigh cfg c) = true ∧
      gain cfg c m = fmul (fsub m (cutLow cfg c)) (slope cfg c)) ∨
    (fle m posZero = false ∧ flt m (cutLow cfg c) = false ∧ flt m (cutHigh cfg c) = false ∧
      gain cfg c m = fdiv one m) := by
  unfold gain
  cases fle m posZero <;> cases flt m (cutLow cfg c) <;> cases flt m (cutHigh cfg c) <;> simp

/-- The three answers of the quantizer. -/
theorem quant_cases (s : F32) :
    (flt s one = true ∧ quant s = 1#8) ∨
    (flt s one = false ∧ fle 0x437F0000#32 s = true ∧ quant s = 255#8) ∨
    (flt s one = false ∧ fle 0x437F0000#32 s = false ∧ quant s = f2iTrunc s) := by
  unfold quant
  cases flt s one <;> cases fle 0x437F0000#32 s <;> simp

/-- What a clock edge can do. -/
theorem clockEdge_cases {b b' : Block} {p : Pins} (h : clockEdge b p = .next b') :
    (p.rstN = false ∧ b' = { core := b.core.resetRegs, busy := none }) ∨
    (p.rstN = true ∧ ∃ k, b.busy = some k ∧ k.left ≤ 1 ∧
      ∃ t, runEvent (.command k.word) b.core = .next t ∧ b' = { core := t, busy := none }) ∨
    (p.rstN = true ∧ ∃ k, b.busy = some k ∧ ¬ k.left ≤ 1 ∧
      b' = { core := b.core, busy := some { word := k.word, left := k.left - 1 } }) ∨
    (p.rstN = true ∧ b.busy = none ∧ ∃ w, acceptedWord b p = some w ∧
      b' = { core := b.core, busy := some { word := w, left := latency w } }) ∨
    (p.rstN = true ∧ b.busy = none ∧ acceptedWord b p = none ∧ b' = b) := by
  unfold clockEdge at h
  split at h
  · next hr =>
    split at h
    · next k hk =>
      split at h
      · next hl =>
        unfold Block.complete at h
        split at h
        · next t ht => cases h; exact .inr (.inl ⟨hr, k, hk, hl, t, ht, rfl⟩)
        · cases h
        · cases h
      · next hl => cases h; exact .inr (.inr (.inl ⟨hr, k, hk, hl, rfl⟩))
    · next hk =>
      split at h
      · next w hw => cases h; exact .inr (.inr (.inr (.inl ⟨hr, hk, w, hw, rfl⟩)))
      · next hw => cases h; exact .inr (.inr (.inr (.inr ⟨hr, hk, hw, rfl⟩)))
  · next hr => cases h; exact .inl ⟨by simpa using hr, rfl⟩

/-- A latency is at least 1 (R41). -/
theorem latency_pos (w : CmdWord) : 1 ≤ latency w := by
  unfold latency
  split <;> omega

end Sys2Proof.Machine
end

