-- ==== Sys2Proof/Laws/PerInstr.lean ====
section
/-! SUPPORT. A fact about every command as syntax, one lemma per constructor. -/

namespace Sys2Proof.Laws

/-- The canonical word of a command matches its own row of R43's table, and a well-formed one is not a reserved
word. -/
def OwnRow.Statement (i : Sys2Proof.Instr) : Prop :=
  Sys2Proof.opField (Sys2Proof.encode i) = Sys2Proof.opcodeOf i ∧
  (i.wf = true → Sys2Proof.opField (Sys2Proof.encode i) ≠ 3#2)

theorem opField_append (o : BitVec 2) (f : BitVec 70) : Sys2Proof.opField (o ++ f) = o := by
  have hn : (o ++ f).toNat = o.toNat <<< 70 ||| f.toNat := BitVec.toNat_append o f
  have h := Nat.shiftLeft_add_eq_or_of_lt (a := o.toNat) f.isLt
  have ho := o.isLt
  have hf := f.isLt
  apply BitVec.eq_of_toNat_eq
  rw [Sys2Proof.opField, BitVec.extractLsb'_toNat, hn, ← h, Nat.shiftLeft_eq, Nat.shiftRight_eq_div_pow]
  omega

theorem OwnRow.nop : OwnRow.Statement .nop := ⟨opField_append _ _, fun _ => by decide⟩
theorem OwnRow.proc (s0 s1 s2 s3 s4 s5 s6 : Sys2Proof.Sample) : OwnRow.Statement (.proc s0 s1 s2 s3 s4 s5 s6) :=
  ⟨opField_append _ _, fun _ h => absurd (show (1#2 : BitVec 2) = 3#2 from (opField_append _ _).symm.trans h) (by decide)⟩
theorem OwnRow.rst : OwnRow.Statement .rst := ⟨opField_append _ _, fun _ => by decide⟩
theorem OwnRow.rsvd3 : OwnRow.Statement .rsvd3 := ⟨opField_append _ _, fun h => absurd h (by decide)⟩

end Sys2Proof.Laws
end

