-- ==== Sys2Proof/Laws/Port.lean ====
section
/-! SUPPORT. How a command in progress goes on from one clock edge to the next. -/

namespace Sys2Proof.Machine

@[simp] theorem runClock_nil (b : Block) : runClock [] b = .next b := rfl

theorem runClock_cons_next {b b' : Block} {p : Pins} (ps : List Pins) (h : clockEdge b p = .next b') :
    runClock (p :: ps) b = runClock ps b' := by
  rw [runClock, h]

/-- A command with more than one edge left counts down. -/
theorem clockEdge_counts {b : Block} {p : Pins} {k : Busy} (hr : p.rstN = true) (hb : b.busy = some k)
    (hl : 1 < k.left) :
    clockEdge b p = .next { core := b.core, busy := some { word := k.word, left := k.left - 1 } } := by
  simp [clockEdge, hr, hb, Nat.not_le.2 hl]

/-- A command with one edge left completes. -/
theorem clockEdge_completes {b : Block} {p : Pins} {k : Busy} (hr : p.rstN = true) (hb : b.busy = some k)
    (hl : k.left ≤ 1) : clockEdge b p = b.complete k.word := by
  simp [clockEdge, hr, hb, hl]

/-- A ready block accepts the word it is shown. -/
theorem clockEdge_accepts {b : Block} {p : Pins} {w : CmdWord} (h : acceptedWord b p = some w) :
    clockEdge b p = .next { core := b.core, busy := some { word := w, left := latency w } } := by
  unfold acceptedWord cmdReady at h
  split at h
  · next hc =>
    simp only [Bool.and_eq_true, Option.isNone_iff_eq_none] at hc
    obtain ⟨⟨hr, hb⟩, hv⟩ := hc
    cases h
    simp [clockEdge, acceptedWord, cmdReady, hr, hb, hv]
  · cases h

end Sys2Proof.Machine
end

