-- ==== Sys2Proof/Tests/Slice0.lean ====
section
/-! SUPPORT. Tests with expected results from the spec's worked examples and tables, and a witness for the hypotheses of
each statement that has some. -/

namespace Sys2Proof.Tests

-- One test at a time: many kernel evaluations at once need more thread stacks than the check's memory limit allows.
set_option Elab.async false

open Sys2Proof Sys2Proof.Machine

/-! ### Well-formedness: one ill-formed term per check -/

/-- R171, R45: no correct host sends the reserved opcode. -/
theorem test_wf_refuses_reserved : Instr.wf .rsvd3 = false ∧ Instr.wf .nop = true := by decide
/-- 97_family_vectors.md section 2.1, assembly errors. -/
theorem test_wf_refuses_six_operands : AsmCmd.wf (.proc [1, 2, 3, 4, 5, 6]) = false := by decide
theorem test_wf_refuses_1024 :
    AsmCmd.wf (.proc [1024, 0, 0, 0, 0, 0, 0]) = false ∧ AsmCmd.wf (.proc [1023, 0, 0, 0, 0, 0, 0]) = true := by decide
/-- R49: `N` is positive. -/
theorem test_wf_refuses_rep_0 : AsmItem.wf (.rep 0 [.nop]) = false ∧ AsmItem.wf (.rep 1 [.nop]) = true := by decide

/-! ### Decoding: words of 97_family_vectors.md section 2.1, whose bits R42's layout gives -/

theorem test_decode_nop : decode 0x000000000000000000#72 = .nop ∧ decode 0x3FFFFFFFFFFFFFFFFF#72 = .nop := by decide
theorem test_decode_proc : decode 0x407018050100300801#72 = .proc 1 2 3 4 5 6 7 := by decide
theorem test_decode_proc_mixed :
    decode 0x4123456789ABCDEF01#72 = .proc 769 891 700 550 359 209 18 ∧
    decode 0x7FF18C090046402802#72 = .proc 2 10 100 1 9 99 1023 := by decide
/-- The same word written bit by bit: op 01, then s6 to s0. -/
theorem test_decode_proc_bits :
    decode (0b01#2 ++ 0b0000000111#10 ++ 0b0000000110#10 ++ 0b0000000101#10 ++ 0b0000000100#10 ++ 0b0000000011#10 ++
      0b0000000010#10 ++ 0b0000000001#10) = .proc 1 2 3 4 5 6 7 := by decide
theorem test_decode_rst : decode 0x800000000000000000#72 = .rst ∧ decode 0xBFFFFFFFFFFFFFFFFF#72 = .rst := by decide
theorem test_decode_rsvd3 : decode 0xC00000000000000000#72 = .rsvd3 ∧ decode 0xFFFFFFFFFFFFFFFFFF#72 = .rsvd3 := by decide
theorem test_encode_proc : encode (.proc 100 200 300 400 500 600 700) = 0x6BC961F46412C32064#72 := by decide
theorem test_encode_others :
    encode .nop = 0#72 ∧ encode .rst = 0x800000000000000000#72 ∧ encode .rsvd3 = 0xC00000000000000000#72 := by decide
theorem test_decodeTableWord : decodeTableWord 72 0x4000000000000003FF = some (.proc 1023 0 0 0 0 0 0) := by decide

/-! ### The assembler (R48, R49) -/

theorem test_assemble :
    assemble "RST ; start\n.rep 2\n  PROC 1, 2, 0x3, 4, 5, 6, 7\n.endr\n\nNOP".toList =
      some [0x800000000000000000#72, 0x407018050100300801#72, 0x407018050100300801#72, 0#72] := by decide +kernel
theorem test_assemble_errors :
    assemble "PROC 1, 2, 3, 4, 5, 6".toList = none ∧ assemble "PROC -1, 0, 0, 0, 0, 0, 0".toList = none ∧
    assemble "nop".toList = none ∧ assemble ".rep 2\n.rep 2\nNOP\n.endr\n.endr".toList = none := by decide +kernel

/-! ### Arithmetic (97_family_vectors.md section 2.2) -/

/-- Ties, subnormals, cancellation, signed zeros, overflow. -/
theorem test_fadd :
    [(0x3F800000#32, 0x33800000#32, 0x3F800000#32), (0x3F800001#32, 0x33800000#32, 0x3F800002#32),
     (0x3F800000#32, 0x33800001#32, 0x3F800001#32), (0x3F800000#32, 0xBF800000#32, 0x00000000#32),
     (0x00000000#32, 0x80000000#32, 0x00000000#32), (0x80000000#32, 0x80000000#32, 0x80000000#32),
     (0x007FFFFF#32, 0x00000001#32, 0x00800000#32), (0x7F7FFFFF#32, 0x73000000#32, 0x7F800000#32),
     (0x7F7FFFFF#32, 0x72FFFFFF#32, 0x7F7FFFFF#32), (0x7F800000#32, 0x3F800000#32, 0x7F800000#32)].all
      (fun v => fadd v.1 v.2.1 == v.2.2) = true := by decide +kernel
theorem test_fadd_inf_minus_inf_is_nan : isNaN (fadd 0x7F800000#32 0xFF800000#32) = true :=
  isNaN_nanWord .add 0x7F800000#32 0xFF800000#32
theorem test_fsub :
    fsub 0x80000000#32 0#32 = 0x80000000#32 ∧ fsub 0#32 0x437F0000#32 = 0xC37F0000#32 ∧
    fsub 0x4195787F#32 0x41957800#32 = 0x397E0000#32 := by decide +kernel
theorem test_fmul :
    [(0x3F800001#32, 0x3F800001#32, 0x3F800002#32), (0x00000001#32, 0x3F000000#32, 0x00000000#32),
     (0x00000003#32, 0x3F000000#32, 0x00000002#32), (0x00000100#32, 0x3F7F8000#32, 0x00000100#32),
     (0x00000101#32, 0x3F7F8000#32, 0x00000100#32), (0x80000008#32, 0x3D800000#32, 0x80000000#32),
     (0x7F7FFFFF#32, 0x40000000#32, 0x7F800000#32), (0x00000000#32, 0xC0A00000#32, 0x80000000#32),
     (0xBC950000#32, 0x40A00000#32, 0xBDBA4000#32)].all (fun v => fmul v.1 v.2.1 == v.2.2) = true := by decide +kernel
theorem test_fdiv :
    [(0x3F800000#32, 0x40400000#32, 0x3EAAAAAB#32), (0x3F800000#32, 0x41960000#32, 0x3D5A740E#32),
     (0x3F800000#32, 0x80000000#32, 0xFF800000#32), (0x3F800000#32, 0x7F800000#32, 0x00000000#32),
     (0x3F800000#32, 0x00000001#32, 0x7F800000#32)].all (fun v => fdiv v.1 v.2.1 == v.2.2) = true := by decide +kernel
theorem test_comparisons :
    flt 0x80000000#32 0#32 = false ∧ fle 0#32 0x80000000#32 = true ∧ flt 0xBF800000#32 1#32 = true ∧
    flt 0x3F800000#32 0x7F800000#32 = true ∧ flt 0x7FC00000#32 0x3F800000#32 = false ∧
    fle 0x7FC00000#32 0x7FC00000#32 = false := by decide +kernel
theorem test_fmax :
    fmax 0#32 0x80000000#32 = 0x80000000#32 ∧ fmax 0x80000000#32 0#32 = 0#32 ∧
    fmax 0x7FC00000#32 0x3F800000#32 = 0x3F800000#32 ∧ fmax 0x40000000#32 0x3F800000#32 = 0x40000000#32 := by
  decide +kernel
theorem test_i2f : i2f 0 = 0#32 ∧ i2f 9 = 0x41100000#32 ∧ i2f 1000 = 0x447A0000#32 ∧ i2f 1023 = 0x447FC000#32 := by
  decide +kernel
/-- 97_family_vectors.md section 2.7. -/
theorem test_quant :
    [(0x80000000#32, 1#8), (0x3F7FFFFF#32, 1#8), (0x3FFFFFFF#32, 1#8), (0x40000000#32, 2#8), (0x42FF0000#32, 127#8),
     (0x437EFFFF#32, 254#8), (0x437F0000#32, 255#8), (0x7F7FFFFF#32, 255#8), (0xC37F0000#32, 1#8)].all
      (fun v => quant v.1 == v.2) = true := by decide +kernel

/-! ### Stages -/

/-- 96_compress_table.md at the segment boundaries. -/
theorem test_compress :
    [(1#10, 0x00000000#32), (2#10, 0x3F7FE000#32), (9#10, 0x4049D600#32), (10#10, 0x405483C0#32),
     (99#10, 0x40D3E3F8#32), (100#10, 0x40D4BE00#32), (1023#10, 0x4120393E#32)].all
      (fun v => compress cfgLsa v.1 == v.2) = true := by decide +kernel
/-- 41_compress_mix.md, mixer vectors: Red and Blue of seven 1023s differ by one unit in the last place. -/
theorem test_mix_order :
    (fun l => (mix cfgLsa l .red, mix cfgLsa l .blue))
      (Bands.map (fun _ => 0x4120393E#32) (frameOf 0 0 0 0 0 0 0)) = (0x41D0478E#32, 0x41D0478D#32) := by decide +kernel
/-- 97_family_vectors.md section 2.5: a tie to even, and the stall. -/
theorem test_ema :
    ema 0x419577FF#32 0x4195787F#32 0x3B800000#32 = 0x41957800#32 ∧
    ema 0x00000008#32 0#32 0x3D800000#32 = 0x00000008#32 := by decide +kernel
/-- 97_family_vectors.md section 2.6, row 9: the decayed envelope exactly at `HI`. -/
theorem test_channel_agc_boundary :
    channelStep cfgLsa .green { avg := 0x40000000, s1 := 0x40800000, env := 0x40804020, s2 := 0, out := 1 }
      0x40000000#32 = { avg := 0x40000000, s1 := 0x40400000, env := 0x40800000, s2 := 0x41700000, out := 15 } := by
  decide +kernel
/-- Row 12: far below the mean; the register keeps the unclipped value. -/
theorem test_channel_clip :
    channelStep cfgLsa .red { avg := 0x41200000, s1 := 0xBF800000, env := 0x40C00000, s2 := 0x43480000, out := 200 }
      0x3F800000#32 = { avg := 0x411F7000, s1 := 0xC03F7000, env := 0x40BFA000, s2 := 0x433B8000, out := 187 } := by
  decide +kernel
/-- The guard vectors of section 2.6, third row: `AVG` overflows, nothing commits. -/
theorem test_channel_guard :
    channelStep cfgLsa .red { avg := 0x7F7FFFFF, s1 := 0, env := 0, s2 := 0, out := 1 } 0xFF7FFFFF#32 =
      { avg := 0x7F7FFFFF, s1 := 0, env := 0, s2 := 0, out := 1 } := by decide +kernel

/-! ### Commands, one step each -/

/-- A state with something in every register, the one of program P5 after its second command. -/
def busyState : State :=
  { red := { avg := 0x3E10419B, s1 := 0x41031769, env := 0x41031769, s2 := 0x41CFE4B3, out := 25 }
    green := { avg := 0x3DDA224E, s1 := 0x40C54A07, env := 0x40C54A07, s2 := 0x41CED464, out := 25 }
    blue := { avg := 0x3E03C58A, s1 := 0x40E9FEE3, env := 0x40E9FEE3, s2 := 0x41E2034C, out := 28 }
    port := [] }

/-- The next state of an outcome, if it is one. -/
def nextOf (o : Host.Outcome State Fault Refusal) : Option State :=
  match o with
  | .next t => some t
  | _ => none

theorem test_step_nop : nextOf (step (busyState.withFetchWord 72 0x3FFFFFFFFFFFFFFFFF)) = some busyState := by decide
theorem test_step_rst : nextOf (step (busyState.withFetchWord 72 0x800000000000000000)) = some State.reset := by decide
/-- Program P1: the seed frame, Green's registers. -/
theorem test_step_proc_seed :
    (nextOf (step (State.reset.withFetchWord 72 0x407018050100300801))).map (fun t => t.green) =
      some { avg := 0x3C926B00, s1 := 0x3F91D895, env := 0x3F91D895, s2 := 0x3E878FA0, out := 1 } := by decide +kernel
/-- Program P5, command 4: from the state above, Blue's registers. -/
theorem test_step_proc_state :
    (nextOf (step (busyState.withFetchWord 72 0x4057D032015F40C805))).map (fun t => t.blue) =
      some { avg := 0x3E3C8451, s1 := 0x4110459D, env := 0x4110459D, s2 := 0x4239F18C, out := 46 } := by decide +kernel
/-- Program P1 in the exact-rational reading: Green's registers. -/
theorem test_exact_seed :
    exactStep cfgLsa .green .reset (frameOf 1 2 3 4 5 6 7) =
      { avg := 37483 / 2097152, s1 := 9558165 / 8388608, env := 9558165 / 8388608,
        s2 := 18631364638175 / 70368744177664, out := 1 } := by decide +kernel
/-- The mixer table of 41_compress_mix.md, the exact-rational column: seven samples of 1023, Red. -/
theorem test_exact_mix :
    exactMix cfgLsa (frameOf 1023 1023 1023 1023 1023 1023 1023) .red = 3494350123 / 134217728 := by decide +kernel
/-- Program P2's last state, the column Q: Green's output. -/
theorem test_exact_run :
    (exactRun cfgLsa .green (List.replicate 3 (frameOf 1023 1023 1023 1023 1023 1023 1023) ++
      List.replicate 3 (frameOf 0 0 0 0 0 0 0)) .reset).out = 80 := by decide +kernel
theorem test_step_rsvd3 : step (busyState.withFetchWord 72 0xC00000000000000000) = .refused .reservedOpcode := rfl
theorem test_step_idle : step busyState = .next busyState := rfl

/-! ### Witnesses: the hypotheses of a statement can be met -/

theorem witness_ResetLeavesTheStatedValues :
    (∃ t, runEvent .hardReset busyState = .next t) ∧ ∃ t, exec .rst busyState = .next t := ⟨⟨_, rfl⟩, ⟨_, rfl⟩⟩
theorem witness_NopChangesNothing : opField 0x3FFFFFFFFFFFFFFFFF#72 = 0#2 := by decide
theorem witness_RstClearsEveryRegister : opField 0x8123456789ABCDEF01#72 = 2#2 := by decide
theorem witness_NothingBeforeRstShows :
    opField 0x8123456789ABCDEF01#72 = 2#2 ∧ busyState.port = State.reset.port ∧ busyState ≠ State.reset := by decide
theorem witness_ReservedOpcodeIsRefused : opField 0xFFFFFFFFFFFFFFFFFF#72 = 3#2 := by decide
theorem witness_StepRunsTheDecodedCommand :
    (busyState.withFetchWord 72 0x407018050100300801).port = .command 0x407018050100300801#72 :: [] ∧
    decode 0x407018050100300801#72 = .proc 1 2 3 4 5 6 7 ∧
    ({ busyState with port := [.hardReset] } : State).port = .hardReset :: [] ∧ busyState.port = [] ∧
    decodeTableWord 72 0x407018050100300801 = some (.proc 1 2 3 4 5 6 7) := by decide
theorem witness_EncodeInvertsDecode :
    opField 0x407018050100300801#72 = 1#2 ∧ opField 0x8123456789ABCDEF01#72 ≠ 1#2 ∧
    opField 0x8123456789ABCDEF01#72 = opField 0x800000000000000000#72 := by decide
theorem witness_SamplesStandWhereTheFormatSays : opField 0x7FFFFFFFFFFFFFFFFF#72 = 1#2 := by decide
theorem witness_AssemblerEncodesCommandLines :
    (¬ (([1, 2, 3, 4, 5, 6] : List Nat).length = 7 ∧ ∀ n ∈ ([1, 2, 3, 4, 5, 6] : List Nat), n ≤ 1023)) ∧
    (¬ (([1024, 0, 0, 0, 0, 0, 0] : List Nat).length = 7 ∧ ∀ n ∈ ([1024, 0, 0, 0, 0, 0, 0] : List Nat), n ≤ 1023)) ∧
    ∀ n ∈ ([1023, 0, 1, 2, 3, 4, 1023] : List Nat), n ≤ 1023 := by decide
theorem witness_RepeatExpandsToCopies : 0 < 3 := by decide
theorem witness_AssemblerProducesOnlyCommands :
    assemble "PROC 1, 2, 3, 4, 5, 6, 7\nRST".toList = some [0x407018050100300801#72, 0x800000000000000000#72] := by
  decide +kernel
theorem witness_RoundingFollowsTheRationalRule : 0 < 3 := by decide

/-- One pair of words per line of the table of R63. -/
theorem witness_AdditionFollowsItsTable :
    isNaN 0x7FC00000#32 = true ∧ (isInf 0x7F800000#32 = true ∧ fsign 0x7F800000#32 = fsign 0x7F800000#32) ∧
    (isInf 0xFF800000#32 = true ∧ fsign 0x7F800000#32 ≠ fsign 0xFF800000#32) ∧ isFinite 0x3F800000#32 = true ∧
    isZero 0x80000000#32 = true ∧
    (isFinite 0xBF800000#32 = true ∧ ¬ (isZero 0x3F800000#32 = true ∧ isZero 0xBF800000#32 = true) ∧
      units 0x3F800000#32 + units 0xBF800000#32 = 0) ∧
    units 0x3F800000#32 + units 0x00000001#32 ≠ 0 := by decide +kernel
/-- A sum of values is zero exactly when the sum of units is. -/
theorem val_add_eq_zero (a b : F32) : val a + val b = 0 ↔ units a + units b = 0 := by
  have h : (2 : ℚ) ^ 149 ≠ 0 := by positivity
  rw [val, val, ← add_div, div_eq_zero_iff]
  constructor
  · rintro (h1 | h1)
    · exact_mod_cast h1
    · exact absurd h1 h
  · intro h1
    exact .inl (by exact_mod_cast h1)
theorem witness_AdditionFollowsItsTable_values :
    val 0x3F800000#32 + val 0xBF800000#32 = 0 ∧ val 0x3F800000#32 + val 0x00000001#32 ≠ 0 :=
  ⟨(val_add_eq_zero _ _).2 (by decide +kernel), fun h => absurd ((val_add_eq_zero _ _).1 h) (by decide +kernel)⟩
theorem witness_SubtractionAddsTheNegation :
    isFinite 0x80000000#32 = true ∧ isNaN 0x7F800000#32 = false ∧ (0x3F800000#32 : F32) ≠ negZero := by decide
/-- One pair per line of R65's table; the product by 1/16 stays above `2^-126`. -/
theorem witness_MultiplicationFollowsItsTable :
    isNaN 0x7F800001#32 = true ∧ (isInf 0x7F800000#32 = true ∧ isZero 0x80000000#32 = true) ∧
    (isNaN 0xC0A00000#32 = false ∧ isZero 0xC0A00000#32 = false ∧ isFinite 0xC0A00000#32 = true) ∧
    isZero 0x00000000#32 = true ∧ cfgLsa.aS2 ∈ [cfgLsa.aAvg, cfgLsa.aS1, cfgLsa.aS2] ∧
    isFinite (fmul cfgLsa.aS2 0xC0A00000#32) = true := by decide +kernel
theorem witness_MultiplicationFollowsItsTable_exact :
    (1 : ℚ) / 2 ^ 126 ≤ |val one * val (0x3F000000#32)| := by
  have h1 : units one = 2 ^ 149 := by decide +kernel
  have h2 : units 0x3F000000#32 = 2 ^ 148 := by decide +kernel
  rw [val, val, h1, h2]
  norm_num
theorem witness_DivisionFollowsItsTable :
    isNaN 0xFFC00000#32 = true ∧ isInf 0xFF800000#32 = true ∧ isZero 0x80000000#32 = true ∧
    isFinite 0x7F7FFFFF#32 = true ∧ isZero 0x00000001#32 = false ∧ isFinite 0x00000001#32 = true := by decide
theorem witness_ComparisonsFollowTheOrder :
    isNaN 0x7FC00000#32 = true ∧ isFinite 0x7F7FFFFF#32 = true ∧ isInf 0xFF800000#32 = true ∧
    isNaN 0x7F800000#32 = false := by decide
theorem witness_MaximumAndFinitenessTests :
    flt 0x3F800000#32 0x40000000#32 = true ∧ flt 0x40000000#32 0x40000000#32 = false ∧ isNaN 0x7FC00000#32 = true := by
  decide +kernel
theorem witness_TruncationIsTheFloor :
    (isFinite 0x3F800000#32 = true ∧ val 0x3F800000#32 = 1) ∧
    (isFinite 0x437EFFFF#32 = true ∧ 1 ≤ val 0x437EFFFF#32 ∧ val 0x437EFFFF#32 < 255) := by
  have h1 : units 0x3F800000#32 = 2 ^ 149 := by decide +kernel
  have h2 : units 0x437EFFFF#32 = 16711679 * 2 ^ 133 := by decide +kernel
  refine ⟨⟨by decide, ?_⟩, by decide, ?_, ?_⟩ <;> rw [val] <;> first | rw [h1] | rw [h2]
  all_goals norm_num
theorem witness_CompressionFollowsItsSegments :
    (1#10).toNat < 2 ∧ (2 ≤ (2#10).toNat ∧ (9#10).toNat < 10) ∧ (10 ≤ (10#10).toNat ∧ (99#10).toNat < 100) ∧
    100 ≤ (100#10).toNat := by decide
theorem witness_CompressionIsIncreasingAndBounded :
    (0#10).toNat < 1023 ∧ (1 ≤ (1#10).toNat ∧ (1022#10).toNat < 1023) := by decide
theorem witness_CompressionIsExactBelow100 : (0#10).toNat < 100 ∧ (99#10).toNat < 100 := by decide
theorem witness_SmoothingHasItsFixedPoints :
    isFinite negZero = true ∧ isFinite 0x41D0478E#32 = true ∧ isFinite cfgLsa.aAvg = true ∧ fsign cfgLsa.aAvg = false := by
  decide
theorem witness_SmoothingNeverOvershoots :
    cfgLsa.aS1 ∈ [cfgLsa.aAvg, cfgLsa.aS1, cfgLsa.aS2] ∧ isFinite 0xBF000000#32 = true ∧ isFinite 0x3F000000#32 = true ∧
    isFinite (fsub 0x3F000000#32 0xBF000000#32) = true ∧ isFinite (fsub 0xBF000000#32 0x3F000000#32) = true ∧
    fle 0xBF000000#32 0x3F000000#32 = true := by decide +kernel
/-- Both clauses: a snap up above the old envelope, and a decay. -/
theorem witness_EnvelopeFollowsPeaks :
    (isFinite 0x40000000#32 = true ∧ fsign 0x40000000#32 = false ∧ isFinite 0x40D00000#32 = true) ∧
    flt 0x40000000#32 (fmax 0x40D00000#32 (fmul 0x40000000#32 cfgLsa.decay)) = true ∧
    fmax 0xBF800000#32 (fmul 0x40000000#32 cfgLsa.decay) = fmul 0x40000000#32 cfgLsa.decay := by decide +kernel
theorem witness_EnvelopeDecayStallsOnlyAtSubnormals :
    isFinite 0x00000101#32 = true ∧ fsign 0x00000101#32 = false ∧ 0x100 < (0x00000101#32).toNat ∧
    isFinite 0x00000100#32 = true ∧ fsign 0x00000100#32 = false ∧ (0x00000100#32).toNat ≤ 0x100 := by decide
theorem witness_ClipLeavesTheRegisterAlone :
    commits (temps cfgLsa .red { avg := 0x41200000, s1 := 0xBF800000, env := 0x40C00000, s2 := 0x43480000, out := 200 }
      0x3F800000#32) = true := by decide +kernel
/-- Each region at its boundary: the guard at +0, silence just below `LO`, the ramp at `LO`, the AGC region at `HI`. -/
theorem witness_GainHasItsRegions :
    fle 0x00000000#32 0x00000000#32 = true ∧
    (fle 0x3F9FFFFF#32 0x00000000#32 = false ∧ flt 0x3F9FFFFF#32 (cutLow cfgLsa .red) = true) ∧
    (fle 0x3FA00000#32 0x00000000#32 = false ∧ flt 0x3FA00000#32 (cutLow cfgLsa .red) = false ∧
      flt 0x3FA00000#32 (cutHigh cfgLsa .red) = true) ∧
    (fle 0x40A00000#32 0x00000000#32 = false ∧ flt 0x40A00000#32 (cutLow cfgLsa .red) = false ∧
      flt 0x40A00000#32 (cutHigh cfgLsa .red) = false) := by decide +kernel
theorem witness_GainRisesThenFalls :
    (fle (cutLow cfgLsa .red) 0x3FA00000#32 = true ∧ fle 0x3FA00000#32 0x409FFFFF#32 = true ∧
      flt 0x409FFFFF#32 (cutHigh cfgLsa .red) = true) ∧
    (fle (cutHigh cfgLsa .red) 0x40A00000#32 = true ∧ fle 0x40A00000#32 0x7F800000#32 = true) ∧
    isNaN 0xFF800000#32 = false := by decide +kernel
theorem witness_NormalizedValueIsBounded :
    isFinite 0x40D00000#32 = true ∧ fsign 0x40D00000#32 = false ∧ fle 0x40D00000#32 0x40D00000#32 = true := by
  decide +kernel
theorem witness_QuantizerClampsTheIntegerPart :
    isFinite 0x437EFFFF#32 = true ∧ isFinite 0x437F0000#32 = true ∧ fle 0x437EFFFF#32 0x437F0000#32 = true := by
  decide +kernel
/-- A channel that commits, and one whose average overflows and does not. -/
theorem witness_CommitIsAllOrNothing :
    commits (temps cfgLsa .red Channel.reset 0x3F800000#32) = true ∧
    isFinite (temps cfgLsa .red { avg := 0x7F7FFFFF, s1 := 0, env := 0, s2 := 0, out := 1 } 0xFF7FFFFF#32).avg1 =
      false := by decide +kernel
theorem witness_ChannelsArePrivate :
    let s' : State := { State.reset with red := busyState.red }
    s'.chan .red = busyState.chan .red ∧ s' ≠ busyState ∧
    (∃ t, exec (.proc 1 2 3 4 5 6 7) busyState = .next t) ∧ ∃ t, exec (.proc 1 2 3 4 5 6 7) s' = .next t :=
  ⟨rfl, by decide, ⟨_, rfl⟩, ⟨_, rfl⟩⟩
theorem witness_ChannelOrderDoesNotMatter :
    List.Perm [ChanId.blue, ChanId.red, ChanId.green] [.red, .green, .blue] := by decide

/-- The registers of `busyState` meet the invariants and the ranges. -/
theorem busyState_red_inv : ChannelInv busyState.red :=
  ⟨by decide, by decide, by decide, by decide, by decide, by decide +kernel, by decide, by decide +kernel⟩
theorem busyState_green_inv : ChannelInv busyState.green :=
  ⟨by decide, by decide, by decide, by decide, by decide, by decide +kernel, by decide, by decide +kernel⟩
theorem busyState_blue_inv : ChannelInv busyState.blue :=
  ⟨by decide, by decide, by decide, by decide, by decide, by decide +kernel, by decide, by decide +kernel⟩
theorem busyState_red_bounded : ChannelBounded .red busyState.red :=
  ⟨⟨by decide, by decide +kernel⟩, by decide +kernel, by decide +kernel, ⟨by decide, by decide +kernel⟩,
    ⟨by decide, by decide +kernel⟩⟩
theorem busyState_green_bounded : ChannelBounded .green busyState.green :=
  ⟨⟨by decide, by decide +kernel⟩, by decide +kernel, by decide +kernel, ⟨by decide, by decide +kernel⟩,
    ⟨by decide, by decide +kernel⟩⟩
theorem busyState_blue_bounded : ChannelBounded .blue busyState.blue :=
  ⟨⟨by decide, by decide +kernel⟩, by decide +kernel, by decide +kernel, ⟨by decide, by decide +kernel⟩,
    ⟨by decide, by decide +kernel⟩⟩

/-- `busyState` with a `PROC` word waiting. -/
def waitingState : State := busyState.withFetchWord 72 0x4057D032015F40C805

theorem witness_ChannelStepKeepsInvariantsForAnyConstants : fsign cfgLsa.decay = false ∧ ChannelInv busyState.red :=
  ⟨by decide, busyState_red_inv⟩
theorem witness_EveryStepKeepsInvariants : StateInv waitingState ∧ ∃ t, step waitingState = .next t :=
  ⟨⟨busyState_red_inv, busyState_green_inv, busyState_blue_inv⟩, ⟨_, rfl⟩⟩
theorem witness_EveryStepKeepsRangesAndCommits : StateBounded waitingState ∧ ∃ t, step waitingState = .next t :=
  ⟨⟨busyState_red_bounded, busyState_green_bounded, busyState_blue_bounded⟩, ⟨_, rfl⟩⟩
theorem witness_ZeroGuardNeverActs :
    (StateBounded waitingState ∧ everyChannel (fun _ ch => Awake ch) waitingState ∧ ∃ t, step waitingState = .next t) ∧
    Awake Channel.reset :=
  ⟨⟨witness_EveryStepKeepsRangesAndCommits.1,
    ⟨.inr (by decide +kernel), .inr (by decide +kernel), .inr (by decide +kernel)⟩, ⟨_, rfl⟩⟩, .inl ⟨rfl, rfl⟩⟩
theorem witness_NoFrameZeroesAverageEnvelopeOrOutputFilter :
    ChannelBounded .red busyState.red ∧ isPositive busyState.red.env = true ∧ isPositive busyState.red.s2 = true :=
  ⟨busyState_red_bounded, by decide +kernel, by decide +kernel⟩
theorem witness_EveryReachableOutputIsInRange :
    ∃ t, runEvents [.command 0x407018050100300801#72, .hardReset, .command 0x7FFFFFFFFFFFFFFFFF#72] State.reset =
      .next t := ⟨_, rfl⟩
theorem witness_RunsWithoutReservedWordsComplete : noReserved [.command 0x407018050100300801#72, .hardReset] := by
  intro w hw
  simp only [List.mem_cons, List.not_mem_nil, or_false, reduceCtorEq, PortEvent.command.injEq] at hw
  subst hw
  decide

/-- Pins that show a `PROC` word, and pins that show nothing. -/
def presenting : Pins := { rstN := true, cmdValid := true, cmdWord := 0x407018050100300801#72 }
def idle : Pins := { rstN := true, cmdValid := false, cmdWord := 0#72 }
/-- A block with one edge left of a `PROC`. -/
def nearlyDone : Block := { core := busyState, busy := some { word := 0x407018050100300801#72, left := 1 } }

theorem witness_ResetEdgeWorksFromAnyState : ({ presenting with rstN := false } : Pins).rstN = false := rfl
theorem witness_AcceptedCommandCompletesAtOnce :
    acceptedWord Block.reset presenting = some 0x407018050100300801#72 ∧
    (∃ t, runEvent (.command 0x407018050100300801#72) Block.reset.core = .next t) ∧
    (∀ q ∈ List.replicate (latency 0x407018050100300801#72) idle, q.rstN = true) ∧
    (List.replicate (latency 0x407018050100300801#72) idle).length = latency 0x407018050100300801#72 ∧
    ([] : List Pins).length < latency 0x407018050100300801#72 := by
  refine ⟨by decide, ⟨_, rfl⟩, fun q hq => ?_, List.length_replicate, ?_⟩
  · rw [List.eq_of_mem_replicate hq]; rfl
  · exact latency_pos _
theorem witness_BusyBlockIgnoresThePort :
    (nearlyDone.busy ≠ none ∧ presenting.rstN = true ∧ idle.rstN = true) ∧
    (clockEdge Block.reset idle = .next Block.reset ∧ edgeEvent Block.reset idle = none) := by
  exact ⟨by decide, rfl, rfl⟩
/-- A reset-free run that accepts a word and carries it to its end, for whatever the latency is. -/
theorem witness_AcceptedWordsDetermineTheRun :
    ∃ (ps : List Pins) (b' : Block), (∀ p ∈ ps, p.rstN = true) ∧ Block.reset.busy = none ∧ b'.busy = none ∧
      runClock ps Block.reset = .next b' ∧ presenting ∈ ps := by
  have key : ∀ (n : Nat) (k : Busy) (s : State), k.left = n + 1 → k.word = 0x407018050100300801#72 →
      ∃ b' : Block, b'.busy = none ∧
        runClock (List.replicate (n + 1) idle) { core := s, busy := some k } = .next b' := by
    intro n
    induction n with
    | zero =>
      intro k s hk hw
      have h : clockEdge { core := s, busy := some k } idle =
          .next { core := processFrame cfgLsa (frameOf 1 2 3 4 5 6 7) s, busy := none } := by
        rw [clockEdge_completes rfl rfl (by omega), hw]
        rfl
      exact ⟨_, rfl, by rw [List.replicate_succ, runClock_cons_next _ h]; rfl⟩
    | succ n ih =>
      intro k s hk hw
      obtain ⟨b', h1, h2⟩ := ih { word := k.word, left := k.left - 1 } s (by simp [hk]) hw
      refine ⟨b', h1, ?_⟩
      rw [List.replicate_succ, runClock_cons_next _ (clockEdge_counts rfl rfl (by omega))]
      exact h2
  have ha : acceptedWord Block.reset presenting = some 0x407018050100300801#72 := by decide
  have hl := latency_pos 0x407018050100300801#72
  obtain ⟨b', h1, h2⟩ := key (latency 0x407018050100300801#72 - 1)
    { word := 0x407018050100300801#72, left := latency 0x407018050100300801#72 } State.reset
    (Nat.sub_add_cancel hl).symm rfl
  refine ⟨presenting :: List.replicate (latency 0x407018050100300801#72 - 1 + 1) idle, b', ?_, rfl, h1, ?_, ?_⟩
  · intro p hp
    rcases List.mem_cons.1 hp with rfl | hp
    · rfl
    · rw [List.eq_of_mem_replicate hp]; rfl
  · rw [runClock_cons_next _ (clockEdge_accepts ha)]
    exact h2
  · exact List.mem_cons_self
/-- A run that ends in a next block, and one that ends in a refusal. -/
theorem witness_ClockEdgesRefineTransactions :
    (∃ b', runClock [idle, { idle with rstN := false }] nearlyDone = .next b') ∧
    runClock [idle] { nearlyDone with busy := some { word := 0xC00000000000000000#72, left := 1 } } =
      .refused .reservedOpcode := ⟨⟨_, rfl⟩, rfl⟩

end Sys2Proof.Tests
end

section
/-! The architectural state of 10_state.md: its reset values (R20), the derived constants (R18), channel privacy
(R15). -/

namespace Sys2Proof.Proofs

open Sys2Proof Sys2Proof.Machine

/-! ### Reset -/

@[simp] theorem runEvent_hardReset (s : State) : runEvent .hardReset s = .next s.resetRegs := rfl

@[simp] theorem exec_rst (s : State) : exec .rst s = .next s.resetRegs := rfl

/-- The two reset events of R165 answer the same next state. -/
theorem eq_resetRegs_of_resetEvent {s t : State} (h : runEvent .hardReset s = .next t ∨ exec .rst s = .next t) :
    t = s.resetRegs := by
  rcases h with h | h
  · rw [runEvent_hardReset] at h
    cases h
    rfl
  · rw [exec_rst] at h
    cases h
    rfl

/-- Settles O1: the reset state is `Channel.reset` in every channel, and both reset events write that. -/
theorem resetLeavesTheStatedValues : Obligations.ResetLeavesTheStatedValues := by
  intro c
  rw [State.reset_chan]
  refine ⟨rfl, rfl, rfl, rfl, rfl, fun s t h => ?_⟩
  rw [eq_resetRegs_of_resetEvent h, State.resetRegs_chan]

/-! ### Channel privacy -/

/-- What a command leaves in channel `c` when it completes, computed from that channel's registers alone (R15). -/
def channelAfter (i : Instr) (c : ChanId) (ch : Channel) : Channel :=
  match i with
  | .nop => ch
  | .proc s0 s1 s2 s3 s4 s5 s6 =>
    channelStep cfgLsa c ch (mix cfgLsa (compressFrame cfgLsa (frameOf s0 s1 s2 s3 s4 s5 s6)) c)
  | .rst => Channel.reset
  | .rsvd3 => ch

theorem exec_chan {i : Instr} {s t : State} (h : exec i s = .next t) (c : ChanId) :
    t.chan c = channelAfter i c (s.chan c) := by
  rcases exec_cases h with ⟨rfl, rfl⟩ | ⟨s0, s1, s2, s3, s4, s5, s6, rfl, rfl⟩ | ⟨rfl, rfl⟩
  · rfl
  · exact processFrame_chan _ _ _ _
  · exact State.resetRegs_chan _ _

/-- Settles O44: the new registers are `channelAfter` of the old ones of the same channel. -/
theorem channelsArePrivate : Obligations.ChannelsArePrivate := by
  intro c i s s' t t' hagree ht ht'
  rw [exec_chan ht c, exec_chan ht' c, hagree]

/-! ### Derived constants -/

/-- R18's sum for any table, in ascending band order from +0. -/
theorem alloc_eq_sum (cfg : Cfg) (c : ChanId) :
    alloc cfg c =
      fadd (fadd (fadd (fadd (fadd (fadd (fadd posZero (cfg.weight.b0.get c)) (cfg.weight.b1.get c))
        (cfg.weight.b2.get c)) (cfg.weight.b3.get c)) (cfg.weight.b4.get c)) (cfg.weight.b5.get c))
        (cfg.weight.b6.get c) := rfl

/-- The weights of Red and Blue add up to 5/2. -/
theorem alloc_cfgLsa_of_mem {c : ChanId} (hc : c ∈ [ChanId.red, ChanId.blue]) : alloc cfgLsa c = 0x40200000#32 := by
  obtain rfl | rfl : c = .red ∨ c = .blue := by simpa using hc
  · decide +kernel
  · decide +kernel

/-- The weights of Green add up to 2. -/
theorem alloc_cfgLsa_green : alloc cfgLsa .green = 0x40000000#32 := by decide +kernel

/-- `LO`, `HI`, the divisor `HI * (HI - LO)` and `SLOPE` depend on the channel only through `ALLOC`: the words where it
is 5/2. -/
theorem derived_words_of_alloc_five_halves {c : ChanId} (h : alloc cfgLsa c = 0x40200000#32) :
    cutLow cfgLsa c = 0x3FA00000#32 ∧ cutHigh cfgLsa c = 0x40A00000#32 ∧
    fmul (cutHigh cfgLsa c) (fsub (cutHigh cfgLsa c) (cutLow cfgLsa c)) = 0x41960000#32 ∧
    slope cfgLsa c = 0x3D5A740E#32 := by
  have hlo : cutLow cfgLsa c = 0x3FA00000#32 := by rw [cutLow, h]; decide +kernel
  have hhi : cutHigh cfgLsa c = 0x40A00000#32 := by rw [cutHigh, h]; decide +kernel
  have hdiv : fmul (cutHigh cfgLsa c) (fsub (cutHigh cfgLsa c) (cutLow cfgLsa c)) = 0x41960000#32 := by
    rw [hlo, hhi]; decide +kernel
  have hslope : slope cfgLsa c = 0x3D5A740E#32 := by rw [Machine.slope, hdiv]; decide +kernel
  exact ⟨hlo, hhi, hdiv, hslope⟩

/-- The same four words where `ALLOC` is 2. -/
theorem derived_words_of_alloc_two {c : ChanId} (h : alloc cfgLsa c = 0x40000000#32) :
    cutLow cfgLsa c = 0x3F800000#32 ∧ cutHigh cfgLsa c = 0x40800000#32 ∧
    fmul (cutHigh cfgLsa c) (fsub (cutHigh cfgLsa c) (cutLow cfgLsa c)) = 0x41400000#32 ∧
    slope cfgLsa c = 0x3DAAAAAB#32 := by
  have hlo : cutLow cfgLsa c = 0x3F800000#32 := by rw [cutLow, h]; decide +kernel
  have hhi : cutHigh cfgLsa c = 0x40800000#32 := by rw [cutHigh, h]; decide +kernel
  have hdiv : fmul (cutHigh cfgLsa c) (fsub (cutHigh cfgLsa c) (cutLow cfgLsa c)) = 0x41400000#32 := by
    rw [hlo, hhi]; decide +kernel
  have hslope : slope cfgLsa c = 0x3DAAAAAB#32 := by rw [Machine.slope, hdiv]; decide +kernel
  exact ⟨hlo, hhi, hdiv, hslope⟩

/-- A value is read off the whole number of units of `2^-149` (R60), so that a word's value is one integer evaluation. -/
theorem val_eq_iff_units (w : F32) (q : ℚ) : val w = q ↔ (units w : ℚ) = q * 2 ^ 149 := by
  rw [val, div_eq_iff (by positivity)]

/-- The exact values of the five words of Red and Blue (R18's table). -/
theorem val_derived_words_red_blue :
    val 0x40200000#32 = 5 / 2 ∧ val 0x3FA00000#32 = 5 / 4 ∧ val 0x40A00000#32 = 5 ∧ val 0x41960000#32 = 75 / 4 ∧
    val 0x3D5A740E#32 = 7158279 / 134217728 := by
  simp only [val_eq_iff_units]
  decide +kernel

/-- The exact values of the five words of Green (R18's table). -/
theorem val_derived_words_green :
    val 0x40000000#32 = 2 ∧ val 0x3F800000#32 = 1 ∧ val 0x40800000#32 = 4 ∧ val 0x41400000#32 = 12 ∧
    val 0x3DAAAAAB#32 = 11184811 / 134217728 := by
  simp only [val_eq_iff_units]
  decide +kernel

/-- `0 < LO < HI` on every channel. -/
theorem cutoffs_ordered (c : ChanId) :
    flt posZero (cutLow cfgLsa c) = true ∧ flt (cutLow cfgLsa c) (cutHigh cfgLsa c) = true := by
  have hsplit : c ∈ [ChanId.red, ChanId.blue] ∨ c = .green := by cases c <;> decide
  rcases hsplit with hc | rfl
  · obtain ⟨hlo, hhi, -, -⟩ := derived_words_of_alloc_five_halves (alloc_cfgLsa_of_mem hc)
    rw [hlo, hhi]
    decide +kernel
  · obtain ⟨hlo, hhi, -, -⟩ := derived_words_of_alloc_two alloc_cfgLsa_green
    rw [hlo, hhi]
    decide +kernel

/-- Settles O28: the formulas are the definitions; the words follow from `ALLOC` by one evaluation per operation, and
the values and the order from the words. -/
theorem derivedConstantsAreTheSpecs : Obligations.DerivedConstantsAreTheSpecs := by
  refine ⟨fun cfg c => ⟨alloc_eq_sum cfg c, rfl, rfl, rfl⟩, fun c hc => ?_, ?_, fun c hc => ?_, ?_, cutoffs_ordered⟩
  · exact ⟨alloc_cfgLsa_of_mem hc, derived_words_of_alloc_five_halves (alloc_cfgLsa_of_mem hc)⟩
  · exact ⟨alloc_cfgLsa_green, derived_words_of_alloc_two alloc_cfgLsa_green⟩
  · have halloc := alloc_cfgLsa_of_mem hc
    obtain ⟨hlo, hhi, hdiv, hslope⟩ := derived_words_of_alloc_five_halves halloc
    rw [hdiv, halloc, hlo, hhi, hslope]
    exact val_derived_words_red_blue
  · obtain ⟨hlo, hhi, hdiv, hslope⟩ := derived_words_of_alloc_two alloc_cfgLsa_green
    rw [hdiv, alloc_cfgLsa_green, hlo, hhi, hslope]
    exact val_derived_words_green

end Sys2Proof.Proofs
end

section
/-! The command word of 30_encoding.md: the decoder's opcode table as match and mask (R43), the place of each sample
(R44). -/

namespace Sys2Proof.Proofs

open Sys2Proof

/-! ### The decoder, one equation per opcode -/

theorem decode_of_opField_zero {w : CmdWord} (h : opField w = 0#2) : decode w = .nop := by simp [decode, h]

theorem decode_of_opField_one {w : CmdWord} (h : opField w = 1#2) :
    decode w = .proc (sampleField w 0) (sampleField w 1) (sampleField w 2) (sampleField w 3) (sampleField w 4)
      (sampleField w 5) (sampleField w 6) := by simp [decode, h]

theorem decode_of_opField_two {w : CmdWord} (h : opField w = 2#2) : decode w = .rst := by simp [decode, h]

theorem decode_of_opField_three {w : CmdWord} (h : opField w = 3#2) : decode w = .rsvd3 := by simp [decode, h]

theorem opcode_cases : ∀ o : BitVec 2, o = 0#2 ∨ o = 1#2 ∨ o = 2#2 ∨ o = 3#2 := by decide

/-- The decoder gives every word the command of its opcode field. -/
@[simp] theorem opcodeOf_decode (w : CmdWord) : opcodeOf (decode w) = opField w := by
  rcases opcode_cases (opField w) with h | h | h | h
  · rw [decode_of_opField_zero h, h, opcodeOf]
  · rw [decode_of_opField_one h, h, opcodeOf]
  · rw [decode_of_opField_two h, h, opcodeOf]
  · rw [decode_of_opField_three h, h, opcodeOf]

/-! ### The fields as numbers -/

theorem sampleField_toNat (w : CmdWord) (b : Nat) : (sampleField w b).toNat = w.toNat / 2 ^ (10 * b) % 1024 := by
  rw [sampleField, BitVec.extractLsb'_toNat, Nat.shiftRight_eq_div_pow]

/-- Settles O14: the decoder takes the seven slices, and a slice is a quotient and a remainder. -/
theorem samplesStandWhereTheFormatSays : Obligations.SamplesStandWhereTheFormatSays := by
  intro w hw
  have hs0 : (sampleField w 0).toNat = w.toNat % 1024 := by simpa using sampleField_toNat w 0
  exact ⟨_, _, _, _, _, _, _, decode_of_opField_one hw, hs0, sampleField_toNat w 1, sampleField_toNat w 2,
    sampleField_toNat w 3, sampleField_toNat w 4, sampleField_toNat w 5, sampleField_toNat w 6⟩

/-! ### The match and mask list -/

/-- R42: a word is its opcode field followed by its frame field. -/
theorem opField_append_frame (w : CmdWord) : opField w ++ w.extractLsb' 0 70 = w :=
  (BitVec.extractLsb'_append_extractLsb'_eq_extractLsb' rfl).trans BitVec.extractLsb'_eq_self

/-- R43's mask keeps the opcode field and clears the frame field. -/
theorem and_opcodeMask (w : CmdWord) : w &&& 0xC00000000000000000#72 = opField w ++ 0#70 := by
  have hmask : 0xC00000000000000000#72 = BitVec.allOnes 2 ++ 0#70 := by decide
  calc w &&& 0xC00000000000000000#72
      = (opField w ++ w.extractLsb' 0 70) &&& (BitVec.allOnes 2 ++ 0#70) := by rw [opField_append_frame, hmask]
    _ = opField w ++ 0#70 := by rw [BitVec.and_append, BitVec.and_allOnes, BitVec.and_zero]

theorem mask_of_mem_opcodeRows : ∀ r ∈ opcodeRows, r.mask = 0xC00000000000000000#72 := by decide

theorem hits_iff_pattern {r : OpRow} (hr : r ∈ opcodeRows) (w : CmdWord) :
    r.hits w = true ↔ r.pattern = opField w ++ 0#70 := by
  rw [OpRow.hits, mask_of_mem_opcodeRows r hr, and_opcodeMask, beq_iff_eq, eq_comm]

/-- No two rows share a pattern, so that a word's opcode field leaves one row at most. -/
theorem eq_of_pattern_eq {r r' : OpRow} (hr : r ∈ opcodeRows) (hr' : r' ∈ opcodeRows) (h : r.pattern = r'.pattern) :
    r = r' := by
  have hnodup : (opcodeRows.map OpRow.pattern).Nodup := by decide
  exact List.inj_on_of_nodup_map hnodup hr hr' h

/-- Every command has its row: its opcode with zeros below it, under its mnemonic. -/
theorem exists_row_of_instr (i : Instr) :
    ∃ r ∈ opcodeRows, r.pattern = opcodeOf i ++ 0#70 ∧ r.mnemonic = mnemonicOf i := by
  cases i with
  | nop => exact ⟨_, List.mem_cons_self, by decide, rfl⟩
  | proc => exact ⟨_, .tail _ List.mem_cons_self, by rw [opcodeOf]; decide, rfl⟩
  | rst => exact ⟨_, .tail _ (.tail _ List.mem_cons_self), by decide, rfl⟩
  | rsvd3 => exact ⟨_, .tail _ (.tail _ (.tail _ List.mem_cons_self)), by decide, rfl⟩

/-- Settles O13: the row of the decoded command has the word's opcode as its pattern, and patterns tell rows apart. -/
theorem everyWordMatchesOneRow : Obligations.EveryWordMatchesOneRow := by
  intro w
  obtain ⟨r, hr, hpattern, hmnemonic⟩ := exists_row_of_instr (decode w)
  rw [opcodeOf_decode] at hpattern
  refine ⟨r, hr, (hits_iff_pattern hr w).2 hpattern, hmnemonic, fun r' hr' hhits => ?_⟩
  have hpattern' := (hits_iff_pattern hr' w).1 hhits
  exact eq_of_pattern_eq hr' hr (hpattern'.trans hpattern.symm)

end Sys2Proof.Proofs
end

section
/-! The binary32 format of 40_numerics.md: the classes of R60, the magnitudes that have a word, and the word of each. -/

namespace Sys2Proof.Proofs

open Sys2Proof Sys2Proof.Machine

/-! ### The classes of R60 exclude each other -/

theorem isZero_iff (w : F32) : isZero w = true ↔ fexp w = 0 ∧ ffrac w = 0 := by simp [isZero]

theorem isFinite_iff_fexp (w : F32) : isFinite w = true ↔ fexp w ≠ 255 := by simp [isFinite]

theorem isInf_iff (w : F32) : isInf w = true ↔ fexp w = 255 ∧ ffrac w = 0 := by simp [isInf]

theorem isFinite_of_isZero {w : F32} (h : isZero w = true) : isFinite w = true := by
  obtain ⟨hexp, -⟩ := (isZero_iff w).1 h
  simp [isFinite, hexp]

theorem isNaN_of_isInf {w : F32} (h : isInf w = true) : isNaN w = false := by
  obtain ⟨-, hfrac⟩ := (isInf_iff w).1 h
  simp [isNaN, hfrac]

theorem isZero_of_isInf {w : F32} (h : isInf w = true) : isZero w = false := by
  obtain ⟨hexp, -⟩ := (isInf_iff w).1 h
  simp [isZero, hexp]

theorem isFinite_or_isInf_of_not_isNaN {w : F32} (h : isNaN w = false) : isFinite w = true ∨ isInf w = true := by
  cases hinf : isInf w with
  | true => exact .inr rfl
  | false => exact .inl ((isFinite_iff w).2 ⟨h, hinf⟩)

/-- The two zeros of R60 as words. -/
theorem eq_zero_of_isZero {w : F32} (h : isZero w = true) : w = posZero ∨ w = negZero := by
  obtain ⟨hexp, hfrac⟩ := (isZero_iff w).1 h
  have hw := pack_fields w
  rw [hexp, hfrac] at hw
  cases hs : fsign w with
  | false => left; rw [← hw, hs]; rfl
  | true => right; rw [← hw, hs]; rfl

/-! ### Values -/

/-- The sign of a word as a factor of its value. -/
def sgn (s : Bool) : ℚ := if s then -1 else 1

theorem sgn_xor (s t : Bool) : sgn (s ^^ t) = sgn s * sgn t := by
  cases s <;> cases t <;> simp [sgn]

@[simp] theorem sgn_mul_self (s : Bool) : sgn s * sgn s = 1 := by cases s <;> simp [sgn]

@[simp] theorem abs_sgn (s : Bool) : |sgn s| = 1 := by cases s <;> simp [sgn]

theorem units_eq_sgn (w : F32) : (units w : ℚ) = sgn (fsign w) * magUnits w := by
  cases hs : fsign w <;> simp [units, sgn, hs]

theorem val_eq_sgn (w : F32) : val w = sgn (fsign w) * magUnits w / 2 ^ 149 := by rw [val, units_eq_sgn]

theorem abs_val (w : F32) : |val w| = magUnits w / 2 ^ 149 := by
  rw [val_eq_sgn, abs_div, abs_mul, abs_sgn, one_mul, Nat.abs_cast, abs_of_pos (by positivity)]

theorem magUnits_eq_zero_iff (w : F32) : magUnits w = 0 ↔ isZero w = true := by
  rw [isZero_iff, magUnits]
  by_cases hexp : fexp w = 0
  · simp [hexp]
  · simp [hexp]

theorem magUnits_pos {w : F32} (h : isZero w = false) : 0 < magUnits w :=
  Nat.pos_of_ne_zero fun h0 => by simp [(magUnits_eq_zero_iff w).1 h0] at h

theorem units_eq_zero_iff (w : F32) : units w = 0 ↔ isZero w = true := by
  rw [← magUnits_eq_zero_iff, units]
  split <;> omega

theorem natAbs_units (w : F32) : (units w).natAbs = magUnits w := by
  rw [units]
  split <;> simp

theorem units_neg_iff {w : F32} (h : isZero w = false) : units w < 0 ↔ fsign w = true := by
  have hpos := magUnits_pos h
  rw [units]
  split <;> simp_all

/-! ### Magnitudes that have a word -/

/-- A magnitude in units that is a 24-bit integer times a power of two (R60). -/
def Representable (m : Nat) : Prop := ∃ n k, n < 2 ^ 24 ∧ m = n * 2 ^ k

/-- The fields of a representable magnitude: a fraction below `2^23`, or 24 bits with the top one set. -/
theorem Representable.normalize {m : Nat} (h : Representable m) :
    m < 2 ^ 23 ∨ ∃ n k, 2 ^ 23 ≤ n ∧ n < 2 ^ 24 ∧ m = n * 2 ^ k := by
  obtain ⟨n, k, hn, rfl⟩ := h
  induction k generalizing n with
  | zero =>
    rw [pow_zero, mul_one]
    exact (lt_or_ge n (2 ^ 23)).imp_right fun hge => ⟨n, 0, hge, hn, by simp⟩
  | succ k ih =>
    rcases lt_or_ge n (2 ^ 23) with hlt | hge
    · have hdouble : n * 2 ^ (k + 1) = (2 * n) * 2 ^ k := by ring
      rw [hdouble]
      exact ih (2 * n) (by omega)
    · exact .inr ⟨n, k + 1, hge, hn, rfl⟩

theorem log2_normal {n : Nat} (k : Nat) (hlo : 2 ^ 23 ≤ n) (hhi : n < 2 ^ 24) : Nat.log2 (n * 2 ^ k) = 23 + k := by
  have hne : n * 2 ^ k ≠ 0 := Nat.mul_ne_zero (by omega) (by positivity)
  rw [Nat.log2_eq_iff hne]
  constructor
  · rw [pow_add]
    exact Nat.mul_le_mul_right _ hlo
  · calc n * 2 ^ k < 2 ^ 24 * 2 ^ k := Nat.mul_lt_mul_of_pos_right hhi (by positivity)
      _ = 2 ^ (23 + k + 1) := by ring

theorem log2_sub_of_lt {m : Nat} (h : m < 2 ^ 23) : Nat.log2 m - 23 = 0 := by
  rcases eq_or_ne m 0 with rfl | hne
  · decide
  · have := (Nat.log2_lt hne).2 h
    omega

/-- Every finite word has a representable magnitude, at most `MAXF`. -/
theorem representable_magUnits (w : F32) : Representable (magUnits w) := by
  have hf := ffrac_lt w
  rw [magUnits]
  split
  · exact ⟨ffrac w, 0, by omega, by simp⟩
  · exact ⟨2 ^ 23 + ffrac w, fexp w - 1, by omega, rfl⟩

theorem magUnits_le_maxUnits {w : F32} (h : isFinite w = true) : magUnits w ≤ maxUnits := by
  have hf := ffrac_lt w
  have he := fexp_lt w
  have hne := (isFinite_iff_fexp w).1 h
  rw [magUnits, maxUnits]
  split
  · exact le_trans (by omega) (Nat.le_mul_of_pos_right _ (by positivity))
  · exact Nat.mul_le_mul (by omega) (Nat.pow_le_pow_right (by norm_num) (by omega))

/-! ### The word of a magnitude -/

theorem finiteWord_small (s : Bool) {m : Nat} (h : m < 2 ^ 23) : finiteWord s m = pack s 0 m := if_pos h

theorem finiteWord_normal (s : Bool) {n : Nat} (k : Nat) (hlo : 2 ^ 23 ≤ n) (hhi : n < 2 ^ 24) :
    finiteWord s (n * 2 ^ k) = pack s (k + 1) (n - 2 ^ 23) := by
  have hge : ¬ n * 2 ^ k < 2 ^ 23 := not_lt.2 (hlo.trans (Nat.le_mul_of_pos_right _ (by positivity)))
  have hk : 23 + k - 23 = k := by omega
  simp only [finiteWord, if_neg hge, log2_normal k hlo hhi, hk, Nat.mul_div_cancel n (Nat.two_pow_pos k)]

/-- A normal magnitude up to `MAXF` has a biased exponent below 255. -/
theorem exponent_le_of_le_maxUnits {n k : Nat} (hlo : 2 ^ 23 ≤ n) (h : n * 2 ^ k ≤ maxUnits) : k ≤ 253 := by
  by_contra hk
  have hpow : 2 ^ 254 ≤ 2 ^ k := Nat.pow_le_pow_right (by norm_num) (by omega)
  have hmul : 2 ^ 23 * 2 ^ 254 ≤ n * 2 ^ k := Nat.mul_le_mul hlo hpow
  have hmax : maxUnits < 2 ^ 23 * 2 ^ 254 := by decide +kernel
  omega

@[simp] theorem fsign_finiteWord (s : Bool) (m : Nat) : fsign (finiteWord s m) = s := by
  rw [finiteWord]
  split <;> simp

theorem finiteWord_spec (s : Bool) {m : Nat} (hrep : Representable m) (hmax : m ≤ maxUnits) :
    isFinite (finiteWord s m) = true ∧ magUnits (finiteWord s m) = m := by
  rcases hrep.normalize with hlt | ⟨n, k, hlo, hhi, rfl⟩
  · rw [finiteWord_small s hlt, isFinite_iff_fexp, magUnits, fexp_pack, ffrac_pack, Nat.mod_eq_of_lt hlt]
    exact ⟨by decide, rfl⟩
  · have hk := exponent_le_of_le_maxUnits hlo hmax
    have hexp : (k + 1) % 256 = k + 1 := Nat.mod_eq_of_lt (by omega)
    have hfrac : (n - 2 ^ 23) % 2 ^ 23 = n - 2 ^ 23 := Nat.mod_eq_of_lt (by omega)
    have hn : 2 ^ 23 + (n - 2 ^ 23) = n := by omega
    rw [finiteWord_normal s k hlo hhi, isFinite_iff_fexp, magUnits, fexp_pack, ffrac_pack, hexp, hfrac, hn]
    exact ⟨by omega, by simp⟩

/-- A word is determined by its sign and magnitude. -/
theorem finiteWord_magUnits (w : F32) : finiteWord (fsign w) (magUnits w) = w := by
  have hf := ffrac_lt w
  by_cases hexp : fexp w = 0
  · have hm : magUnits w = ffrac w := if_pos hexp
    rw [hm, finiteWord_small _ hf, ← hexp, pack_fields]
  · have hm : magUnits w = (2 ^ 23 + ffrac w) * 2 ^ (fexp w - 1) := if_neg hexp
    have he : fexp w - 1 + 1 = fexp w := by omega
    rw [hm, finiteWord_normal _ _ (by omega) (by omega), he, Nat.add_sub_cancel_left, pack_fields]

end Sys2Proof.Proofs
end

section
/-! Rounding: `rnd32` over fractions of units is the `rnd32` that R62 writes over the rationals. -/

namespace Sys2Proof.Proofs

open Sys2Proof Sys2Proof.Machine

/-! ### `rnd32` by cases -/

/-- The exponent of the model's spacing: `u = 2^k` units around `num/den` units (R62). -/
def spacingExp (num den : Nat) : Nat := Nat.log2 (num / den) - 23

/-- The model's rounded quotient: `num/d` to the nearest integer, ties to even (R62). -/
def roundQuotient (num d : Nat) : Nat :=
  if d < 2 * (num % d) ∨ (2 * (num % d) = d ∧ num / d % 2 = 1) then num / d + 1 else num / d

theorem roundUnits_eq (num den : Nat) :
    roundUnits num den = roundQuotient num (den * 2 ^ spacingExp num den) * 2 ^ spacingExp num den := rfl

theorem rnd32_zero (s : Bool) (den : Nat) (zs : Bool) : rnd32 s 0 den zs = zeroOf zs := rfl

theorem rnd32_overflow (s : Bool) {num den : Nat} (zs : Bool) (hnum : num ≠ 0) (h : maxUnits < roundUnits num den) :
    rnd32 s num den zs = infOf s := by simp only [rnd32, if_neg hnum, if_pos h]

theorem rnd32_finite (s : Bool) {num den : Nat} (zs : Bool) (hnum : num ≠ 0) (h : roundUnits num den ≤ maxUnits) :
    rnd32 s num den zs = finiteWord s (roundUnits num den) := by simp only [rnd32, if_neg hnum, if_neg h.not_gt]

/-! ### A rounded magnitude has a word -/

theorem roundQuotient_le (num d : Nat) : roundQuotient num d ≤ num / d + 1 := by
  rw [roundQuotient]
  split <;> omega

/-- The spacing leaves a quotient of 24 bits; rounding up can carry to `2^24` (R62). -/
theorem div_spacing_lt (num den : Nat) : num / (den * 2 ^ spacingExp num den) < 2 ^ 24 := by
  rw [← Nat.div_div_eq_div_mul, Nat.div_lt_iff_lt_mul (by positivity), ← pow_add]
  refine lt_of_lt_of_le Nat.lt_log2_self (Nat.pow_le_pow_right (by norm_num) ?_)
  rw [spacingExp]
  omega

theorem representable_roundUnits (num den : Nat) : Representable (roundUnits num den) := by
  have hlt := div_spacing_lt num den
  have hle := roundQuotient_le num (den * 2 ^ spacingExp num den)
  rw [roundUnits_eq]
  rcases eq_or_ne (roundQuotient num (den * 2 ^ spacingExp num den)) (2 ^ 24) with hcarry | hne
  · exact ⟨1, 24 + spacingExp num den, by norm_num, by rw [hcarry, pow_add, one_mul]⟩
  · exact ⟨_, _, by omega, rfl⟩

/-! ### Exact results -/

theorem roundQuotient_mul (n : Nat) {d : Nat} (hd : 0 < d) : roundQuotient (n * d) d = n := by
  rw [roundQuotient, Nat.mul_mod_left, Nat.mul_div_cancel n hd, if_neg (by omega)]

/-- A magnitude that has a word is not changed by rounding. -/
theorem roundUnits_of_representable {m den : Nat} (h : Representable m) (hden : 0 < den) :
    roundUnits (m * den) den = m := by
  rw [roundUnits_eq, spacingExp, Nat.mul_div_cancel m hden]
  rcases h.normalize with hlt | ⟨n, k, hlo, hhi, rfl⟩
  · rw [log2_sub_of_lt hlt, pow_zero, mul_one, mul_one, roundQuotient_mul m hden]
  · have hnum : n * 2 ^ k * den = n * (den * 2 ^ k) := by ring
    rw [log2_normal k hlo hhi, Nat.add_sub_cancel_left, hnum, roundQuotient_mul n (by positivity)]

theorem rnd32_of_representable (s : Bool) {m den : Nat} (zs : Bool) (hm : m ≠ 0) (hden : 0 < den)
    (hrep : Representable m) (hmax : m ≤ maxUnits) : rnd32 s (m * den) den zs = finiteWord s m := by
  have hround := roundUnits_of_representable hrep hden
  rw [rnd32_finite s zs (Nat.mul_ne_zero hm hden.ne') (by rwa [hround]), hround]

/-- A finite nonzero word is its own rounding. -/
theorem rnd32_magUnits {w : F32} (zs : Bool) (hfin : isFinite w = true) (hnz : isZero w = false) :
    rnd32 (fsign w) (magUnits w) 1 zs = w := by
  have h := rnd32_of_representable (fsign w) zs (magUnits_pos hnz).ne' one_pos (representable_magUnits w)
    (magUnits_le_maxUnits hfin)
  rwa [mul_one, finiteWord_magUnits] at h

/-! ### R62 over the rationals -/

/-- R62's `n` after its rounding line: the integer nearest to `y`, ties to even. -/
def nearestEven (y : ℚ) : Int :=
  if 1 / 2 < y - ⌊y⌋ ∨ (y - ⌊y⌋ = 1 / 2 ∧ ⌊y⌋ % 2 = 1) then ⌊y⌋ + 1 else ⌊y⌋

/-- R62's `u`: the spacing of binary32 values around `a`. -/
def spacing (a : ℚ) : ℚ := 2 ^ (max (Int.log 2 a) (-126) - 23)

/-- R62's `m`: the rounded magnitude. -/
def roundedMagnitude (a : ℚ) : ℚ := nearestEven (a / spacing a) * spacing a

/-- The lines of R62 for a nonzero rational. -/
theorem roundsTo_iff {q : ℚ} (zs : Bool) (w : F32) (hq : q ≠ 0) :
    roundsTo q zs w ↔ if maxF < roundedMagnitude |q| then w = infOf (decide (q < 0))
      else isFinite w = true ∧ fsign w = decide (q < 0) ∧ |val w| = roundedMagnitude |q| := by
  rw [roundsTo, if_neg hq]
  rfl

/-- Scaling by the unit `2^-149` moves the binary logarithm by 149. -/
theorem log_div_unit {x : ℚ} (hx : 0 < x) : Int.log 2 (x / 2 ^ 149) = Int.log 2 x - 149 := by
  refine eq_of_forall_le_iff fun z => ?_
  have hpow : (2 : ℚ) ^ (z + 149) = 2 ^ z * 2 ^ 149 := by
    rw [zpow_add₀ two_ne_zero]
    norm_cast
  calc z ≤ Int.log 2 (x / 2 ^ 149)
      ↔ (2 : ℚ) ^ z ≤ x / 2 ^ 149 := (Int.zpow_le_iff_le_log one_lt_two (by positivity)).symm
    _ ↔ (2 : ℚ) ^ (z + 149) ≤ x := by rw [hpow, le_div_iff₀ (by positivity)]
    _ ↔ z + 149 ≤ Int.log 2 x := Int.zpow_le_iff_le_log one_lt_two hx
    _ ↔ z ≤ Int.log 2 x - 149 := by omega

/-- The model's exponent is the binary logarithm above 23 and zero below. -/
theorem spacingExp_eq_log (num den : Nat) :
    (spacingExp num den : ℤ) = max (Int.log 2 ((num : ℚ) / den)) 23 - 23 := by
  have hfloor : ⌊(num : ℚ) / den⌋₊ = num / den := Nat.floor_div_eq_div num den
  rw [spacingExp]
  rcases le_or_gt 1 ((num : ℚ) / den) with hge | hlt
  · rw [Int.log_of_one_le_right 2 hge, hfloor, Nat.log2_eq_log_two]
    omega
  · have hzero : num / den = 0 := by rw [← hfloor, Nat.floor_eq_zero.2 hlt]
    have hlog : Int.log 2 ((num : ℚ) / den) ≤ 0 := by
      rw [Int.log_of_right_le_one 2 hlt.le]
      omega
    rw [hzero, Nat.log2_zero]
    omega

/-- R62's spacing, in units of `2^-149`, is the model's power of two. -/
theorem spacing_eq {num den : Nat} (hnum : 0 < num) (hden : 0 < den) :
    spacing ((num : ℚ) / den / 2 ^ 149) = 2 ^ spacingExp num den / 2 ^ 149 := by
  have hexp : max (Int.log 2 ((num : ℚ) / den / 2 ^ 149)) (-126) - 23 = (spacingExp num den : ℤ) - (149 : ℕ) := by
    rw [spacingExp_eq_log, log_div_unit (by positivity)]
    omega
  rw [spacing, hexp, zpow_sub₀ two_ne_zero, zpow_natCast, zpow_natCast]

/-- The model's comparisons of `2 * r` with the divisor are R62's comparisons of the fraction with one half. -/
theorem roundQuotient_cast (num : Nat) {d : Nat} (hd : 0 < d) :
    (roundQuotient num d : ℤ) = nearestEven ((num : ℚ) / d) := by
  have hfloor : ⌊(num : ℚ) / d⌋ = ((num / d : ℕ) : ℤ) := by
    rw [Rat.floor_natCast_div_natCast, Int.natCast_div]
  have hfract : (num : ℚ) / d - ⌊(num : ℚ) / d⌋ = ((num % d : ℕ) : ℚ) / d :=
    Int.fract_div_natCast_eq_div_natCast_mod
  have hd' : (0 : ℚ) < d := by exact_mod_cast hd
  have habove : (1 : ℚ) / 2 < ((num % d : ℕ) : ℚ) / d ↔ d < 2 * (num % d) := by
    rw [div_lt_div_iff₀ two_pos hd', one_mul, mul_comm]
    exact_mod_cast Iff.rfl
  have htie : ((num % d : ℕ) : ℚ) / d = 1 / 2 ↔ 2 * (num % d) = d := by
    rw [div_eq_div_iff hd'.ne' two_ne_zero, one_mul, mul_comm]
    exact_mod_cast Iff.rfl
  have hodd : ((num / d : ℕ) : ℤ) % 2 = 1 ↔ num / d % 2 = 1 := by omega
  simp only [nearestEven, hfract]
  simp only [roundQuotient, habove, htie, hfloor, hodd]
  split <;> rfl

/-- The model's rounded magnitude is R62's, in units of `2^-149`. -/
theorem roundUnits_cast {num den : Nat} (hnum : 0 < num) (hden : 0 < den) :
    (roundUnits num den : ℚ) / 2 ^ 149 = roundedMagnitude ((num : ℚ) / den / 2 ^ 149) := by
  have hquot : (num : ℚ) / den / 2 ^ 149 / (2 ^ spacingExp num den / 2 ^ 149) =
      (num : ℚ) / ((den * 2 ^ spacingExp num den : ℕ) : ℚ) := by
    rw [div_div_div_cancel_right₀ (by positivity), div_div]
    norm_cast
  rw [roundedMagnitude, spacing_eq hnum hden, hquot, ← roundQuotient_cast num (by positivity), roundUnits_eq]
  push_cast
  ring

theorem maxF_eq : maxF = (maxUnits : ℚ) / 2 ^ 149 := by
  rw [maxF, maxUnits, eq_div_iff (by positivity)]
  push_cast
  ring

theorem maxF_lt_iff (m : Nat) : maxF < (m : ℚ) / 2 ^ 149 ↔ maxUnits < m := by
  rw [maxF_eq, div_lt_div_iff_of_pos_right (by positivity), Nat.cast_lt]

/-- The sign of a nonzero quantity `±num/den` units. -/
theorem sgn_mul_neg_iff (s : Bool) {a : ℚ} (ha : 0 < a) : decide (sgn s * a < 0) = s := by
  cases s with
  | false => simpa [sgn] using ha.le
  | true => simpa [sgn] using ha

/-- The rounding of `±num/den` units of `2^-149` is R62's. -/
theorem roundsTo_rnd32 (s zs : Bool) (num : Nat) {den : Nat} (hden : 0 < den) :
    roundsTo (sgn s * ((num : ℚ) / den) / 2 ^ 149) zs (rnd32 s num den zs) := by
  rcases Nat.eq_zero_or_pos num with rfl | hnum
  · rw [rnd32_zero, roundsTo, if_pos (by simp)]
  · have ha : 0 < (num : ℚ) / den / 2 ^ 149 := by positivity
    have hsgn : sgn s ≠ 0 := by cases s <;> simp [sgn]
    rw [mul_div_assoc, roundsTo_iff _ _ (mul_ne_zero hsgn ha.ne'), abs_mul, abs_sgn, one_mul, abs_of_pos ha,
      sgn_mul_neg_iff s ha, ← roundUnits_cast hnum hden]
    simp only [maxF_lt_iff]
    split
    case isTrue hover => exact rnd32_overflow s zs hnum.ne' hover
    case isFalse hle =>
      have hmax := not_lt.1 hle
      obtain ⟨hfin, hmag⟩ := finiteWord_spec s (representable_roundUnits num den) hmax
      rw [rnd32_finite s zs hnum.ne' hmax, abs_val, hmag]
      exact ⟨hfin, fsign_finiteWord _ _, rfl⟩

/-- Settles O18: the spacings agree, the rounded quotients agree, and the rounded magnitude has a word. -/
theorem roundingFollowsTheRationalRule : Obligations.RoundingFollowsTheRationalRule :=
  fun s zs num _ hden => roundsTo_rnd32 s zs num hden

end Sys2Proof.Proofs
end

section
/-! The four operations of 40_numerics.md: `fadd`, `fsub`, `fmul`, `fdiv` (R63 to R66). -/

namespace Sys2Proof.Proofs

open Sys2Proof Sys2Proof.Machine

/-! ### Addition, one equation per line of R63 -/

theorem fadd_inf_same {a b : F32} (ha : isInf a = true) (hb : isInf b = true) (hs : fsign a = fsign b) :
    fadd a b = a := by simp [fadd, isNaN_of_isInf ha, isNaN_of_isInf hb, ha, hb, hs]

theorem fadd_inf_opposite {a b : F32} (ha : isInf a = true) (hb : isInf b = true) (hs : fsign a ≠ fsign b) :
    fadd a b = nanWord .add a b := by simp [fadd, isNaN_of_isInf ha, isNaN_of_isInf hb, ha, hb, hs]

theorem fadd_inf_finite {a b : F32} (ha : isInf a = true) (hb : isFinite b = true) : fadd a b = a := by
  simp [fadd, isNaN_of_isInf ha, isNaN_of_isFinite hb, ha, isInf_of_isFinite hb]

theorem fadd_finite_inf {a b : F32} (ha : isFinite a = true) (hb : isInf b = true) : fadd a b = b := by
  simp [fadd, isNaN_of_isFinite ha, isNaN_of_isInf hb, hb, isInf_of_isFinite ha]

theorem fadd_zeros {a b : F32} (ha : isZero a = true) (hb : isZero b = true) :
    fadd a b = if fsign a = true ∧ fsign b = true then negZero else posZero := by
  have hfa := isFinite_of_isZero ha
  have hfb := isFinite_of_isZero hb
  simp [fadd, isNaN_of_isFinite hfa, isNaN_of_isFinite hfb, isInf_of_isFinite hfa, isInf_of_isFinite hfb, ha, hb]

theorem fadd_cancel {a b : F32} (ha : isFinite a = true) (hb : isFinite b = true)
    (hnz : ¬ (isZero a = true ∧ isZero b = true)) (h : units a + units b = 0) : fadd a b = posZero := by
  simp [fadd, isNaN_of_isFinite ha, isNaN_of_isFinite hb, isInf_of_isFinite ha, isInf_of_isFinite hb, hnz, h]

theorem fadd_rounds {a b : F32} (ha : isFinite a = true) (hb : isFinite b = true) (h : units a + units b ≠ 0) :
    fadd a b = rnd32 (decide (units a + units b < 0)) (units a + units b).natAbs 1 false := by
  have hnz : ¬ (isZero a = true ∧ isZero b = true) := fun ⟨hza, hzb⟩ =>
    h (by rw [(units_eq_zero_iff a).2 hza, (units_eq_zero_iff b).2 hzb, add_zero])
  simp [fadd, isNaN_of_isFinite ha, isNaN_of_isFinite hb, isInf_of_isFinite ha, isInf_of_isFinite hb, hnz, h]

theorem val_add (a b : F32) : val a + val b = ((units a + units b : ℤ) : ℚ) / 2 ^ 149 := by
  rw [val, val, Int.cast_add, add_div]

theorem val_add_eq_zero_iff (a b : F32) : val a + val b = 0 ↔ units a + units b = 0 := by
  rw [val_add, div_eq_zero_iff, Int.cast_eq_zero]
  exact or_iff_left (by positivity)

/-- An integer is its sign times its magnitude. -/
theorem sgn_mul_natAbs (t : ℤ) : sgn (decide (t < 0)) * t.natAbs = t := by
  rcases lt_or_ge t 0 with hneg | hnonneg
  · rw [decide_eq_true hneg, Nat.cast_natAbs, abs_of_neg hneg]
    simp [sgn]
  · rw [decide_eq_false hnonneg.not_gt, Nat.cast_natAbs, abs_of_nonneg hnonneg]
    simp [sgn]

/-- Settles O19: the lines of the table, and on the last one the sum of units is the exact sum. -/
theorem additionFollowsItsTable : Obligations.AdditionFollowsItsTable := by
  intro a b
  refine ⟨fun h => h.elim (isNaN_fadd_left b) (isNaN_fadd_right a), fadd_inf_same, fun ha hb hs => ?_,
    fadd_inf_finite, fadd_finite_inf, fadd_zeros, fun ha hb hnz h => ?_, fun ha hb h => ?_⟩
  · rw [fadd_inf_opposite ha hb hs, isNaN_nanWord]
  · exact fadd_cancel ha hb hnz ((val_add_eq_zero_iff a b).1 h)
  · have hround := roundsTo_rnd32 (decide (units a + units b < 0)) false (units a + units b).natAbs one_pos
    rw [Nat.cast_one, div_one, sgn_mul_natAbs, ← val_add] at hround
    rwa [fadd_rounds ha hb fun h0 => h ((val_add_eq_zero_iff a b).2 h0)]

/-! ### Negation and subtraction -/

@[simp] theorem fsign_fneg (b : F32) : fsign (fneg b) = !fsign b := by simp [fsign, fneg]

@[simp] theorem fexp_fneg (b : F32) : fexp (fneg b) = fexp b := by simp [fexp, fneg, BitVec.extractLsb'_xor]

@[simp] theorem ffrac_fneg (b : F32) : ffrac (fneg b) = ffrac b := by simp [ffrac, fneg, BitVec.extractLsb'_xor]

@[simp] theorem isFinite_fneg (b : F32) : isFinite (fneg b) = isFinite b := by simp [isFinite]

@[simp] theorem isZero_fneg (b : F32) : isZero (fneg b) = isZero b := by simp [isZero]

@[simp] theorem units_fneg (b : F32) : units (fneg b) = -units b := by
  have hmag : magUnits (fneg b) = magUnits b := by simp [magUnits]
  cases hs : fsign b <;> simp [units, hmag, hs]

theorem fsub_self {x : F32} (h : isFinite x = true) : fsub x x = posZero := by
  have hfin : isFinite (fneg x) = true := by rw [isFinite_fneg, h]
  rw [fsub]
  cases hz : isZero x with
  | true =>
    have hzn : isZero (fneg x) = true := by rw [isZero_fneg, hz]
    rw [fadd_zeros hz hzn, if_neg (by simp)]
  | false => exact fadd_cancel h hfin (by simp [hz]) (by simp)

/-- Adding a zero of either sign to a word that is neither a zero nor a NaN answers the word. -/
theorem fadd_zero_right {a z : F32} (hnan : isNaN a = false) (hnz : isZero a = false) (hz : isZero z = true) :
    fadd a z = a := by
  have hfz := isFinite_of_isZero hz
  rcases isFinite_or_isInf_of_not_isNaN hnan with hfin | hinf
  · have hsum : units a + units z = units a := by rw [(units_eq_zero_iff z).2 hz, add_zero]
    have hne : units a ≠ 0 := fun h0 => by simp [(units_eq_zero_iff a).1 h0] at hnz
    have hsign : decide (units a < 0) = fsign a := by simp [units_neg_iff hnz]
    rw [fadd_rounds hfin hfz (by rwa [hsum]), hsum, natAbs_units, hsign, rnd32_magUnits _ hfin hnz]
  · exact fadd_inf_finite hinf hfz

theorem fsub_posZero {a : F32} (hnan : isNaN a = false) : fsub a posZero = a := by
  cases hz : isZero a with
  | true => rcases eq_zero_of_isZero hz with rfl | rfl <;> decide
  | false => exact fadd_zero_right hnan hz (by decide)

theorem fadd_posZero {a : F32} (hnan : isNaN a = false) (hne : a ≠ negZero) : fadd a posZero = a := by
  cases hz : isZero a with
  | true =>
    obtain rfl := (eq_zero_of_isZero hz).resolve_right hne
    decide
  | false => exact fadd_zero_right hnan hz (by decide)

/-- Settles O20: `fneg` inverts the sign field only, and a finite nonzero word is its own rounding. -/
theorem subtractionAddsTheNegation : Obligations.SubtractionAddsTheNegation :=
  ⟨fun _ _ => rfl, fun b => ⟨fsign_fneg b, fexp_fneg b, ffrac_fneg b⟩, fun _ => fsub_self, fun _ => fsub_posZero,
    fun _ => fadd_posZero, by decide⟩

/-! ### Multiplication, one equation per line of R65 -/

theorem fmul_inf_zero {a b : F32} (ha : isInf a = true) (hb : isZero b = true) : fmul a b = nanWord .mul a b := by
  simp [fmul, ha, hb]

theorem fmul_zero_inf {a b : F32} (ha : isZero a = true) (hb : isInf b = true) : fmul a b = nanWord .mul a b := by
  simp [fmul, ha, hb]

theorem fmul_inf_left {a b : F32} (ha : isInf a = true) (hnan : isNaN b = false) (hnz : isZero b = false) :
    fmul a b = infOf (fsign a ^^ fsign b) := by
  simp [fmul, isNaN_of_isInf ha, isZero_of_isInf ha, ha, hnan, hnz]

theorem fmul_inf_right {a b : F32} (hb : isInf b = true) (hnan : isNaN a = false) (hnz : isZero a = false) :
    fmul a b = infOf (fsign a ^^ fsign b) := by
  simp [fmul, isNaN_of_isInf hb, isZero_of_isInf hb, hb, hnan, hnz]

theorem fmul_zero {a b : F32} (ha : isFinite a = true) (hb : isFinite b = true)
    (hz : isZero a = true ∨ isZero b = true) : fmul a b = zeroOf (fsign a ^^ fsign b) := by
  simp [fmul, isNaN_of_isFinite ha, isNaN_of_isFinite hb, isInf_of_isFinite ha, isInf_of_isFinite hb, hz]

theorem fmul_rounds {a b : F32} (ha : isFinite a = true) (hb : isFinite b = true) (hza : isZero a = false)
    (hzb : isZero b = false) :
    fmul a b = rnd32 (fsign a ^^ fsign b) (magUnits a * magUnits b) (2 ^ 149) (fsign a ^^ fsign b) := by
  simp [fmul, isNaN_of_isFinite ha, isNaN_of_isFinite hb, isInf_of_isFinite ha, isInf_of_isFinite hb, hza, hzb]

theorem val_mul_eq (a b : F32) :
    val a * val b =
      sgn (fsign a ^^ fsign b) * (((magUnits a * magUnits b : ℕ) : ℚ) / ((2 ^ 149 : ℕ) : ℚ)) / 2 ^ 149 := by
  rw [val_eq_sgn, val_eq_sgn, sgn_xor]
  push_cast
  ring

/-- The value of a product that is a whole number `m` of units. -/
theorem fmul_exact {a b : F32} {m : Nat} (ha : isFinite a = true) (hb : isFinite b = true)
    (hza : isZero a = false) (hzb : isZero b = false) (hm : magUnits a * magUnits b = m * 2 ^ 149)
    (hrep : Representable m) (hfin : isFinite (fmul a b) = true) : val (fmul a b) = val a * val b := by
  have hprod := fmul_rounds ha hb hza hzb
  have hround := roundUnits_of_representable hrep (Nat.two_pow_pos 149)
  have hnum : m * 2 ^ 149 ≠ 0 := hm ▸ (Nat.mul_pos (magUnits_pos hza) (magUnits_pos hzb)).ne'
  have hm0 : m ≠ 0 := left_ne_zero_of_mul hnum
  rw [hm] at hprod
  have hmax : m ≤ maxUnits := by
    by_contra hover
    rw [hprod, rnd32_overflow _ _ hnum (by rw [hround]; omega)] at hfin
    simp [isFinite, infOf, fexp_pack] at hfin
  rw [rnd32_of_representable _ _ hm0 (by positivity) hrep hmax] at hprod
  obtain ⟨-, hmag⟩ := finiteWord_spec (fsign a ^^ fsign b) hrep hmax
  rw [val_mul_eq, hm, hprod, val_eq_sgn, fsign_finiteWord, hmag, Nat.cast_mul, mul_div_cancel_right₀ _ (by positivity)]

/-- A product of values not below `2^-126`, read in units. -/
theorem le_magUnits_mul {a b : F32} (h : (1 : ℚ) / 2 ^ 126 ≤ |val a * val b|) :
    2 ^ 172 ≤ magUnits a * magUnits b := by
  rw [abs_mul, abs_val, abs_val, div_mul_div_comm, div_le_div_iff₀ (by positivity) (by positivity), one_mul] at h
  have hnat : 2 ^ 149 * 2 ^ 149 ≤ magUnits a * magUnits b * 2 ^ 126 := by exact_mod_cast h
  omega

/-- R65: multiplying by a power of two is exact unless the result falls below `2^-126` (or overflows). -/
theorem fmul_pow_two_exact {k x : F32} {i : Nat} (hk : isFinite k = true) (hpow : magUnits k = 2 ^ i)
    (hx : isFinite x = true) (hfin : isFinite (fmul k x) = true) (hge : (1 : ℚ) / 2 ^ 126 ≤ |val k * val x|) :
    val (fmul k x) = val k * val x := by
  obtain ⟨n, j, hn, hxm⟩ := representable_magUnits x
  have hprod : magUnits k * magUnits x = n * 2 ^ (i + j) := by rw [hpow, hxm]; ring
  have hlarge := le_magUnits_mul hge
  have hshift : 149 ≤ i + j := by
    by_contra hlt
    have hp : 2 ^ (i + j) ≤ 2 ^ 148 := Nat.pow_le_pow_right (by norm_num) (by omega)
    have hlt' : n * 2 ^ (i + j) < 2 ^ 24 * 2 ^ 148 := Nat.mul_lt_mul_of_lt_of_le hn hp (by positivity)
    omega
  have hwhole : magUnits k * magUnits x = n * 2 ^ (i + j - 149) * 2 ^ 149 := by
    rw [hprod, mul_assoc, ← pow_add, Nat.sub_add_cancel hshift]
  have hnz : magUnits k * magUnits x ≠ 0 := by omega
  have hzk : isZero k = false := by
    simpa [magUnits_eq_zero_iff] using left_ne_zero_of_mul hnz
  have hzx : isZero x = false := by
    simpa [magUnits_eq_zero_iff] using right_ne_zero_of_mul hnz
  exact fmul_exact hk hx hzk hzx hwhole ⟨n, _, hn, rfl⟩ hfin

theorem magUnits_of_ffrac_zero {w : F32} (hexp : fexp w ≠ 0) (hfrac : ffrac w = 0) :
    magUnits w = 2 ^ (23 + (fexp w - 1)) := by
  simp [magUnits, hexp, hfrac, pow_add]

/-- The multipliers R65 names are normal words with fraction 0: powers of two. The list is unfolded before `decide`,
which would otherwise run over every word. -/
theorem fields_of_mem_multipliers :
    ∀ k ∈ [cfgLsa.aAvg, cfgLsa.aS1, cfgLsa.aS2, cfgLsa.cutLo, cfgLsa.cutHi, one, 0x3F000000#32],
      isFinite k = true ∧ fexp k ≠ 0 ∧ ffrac k = 0 := by
  simp only [List.forall_mem_cons, List.not_mem_nil, false_imp_iff, implies_true]
  decide

/-- Settles O21: the lines of the table; the product of magnitudes is the exact product; and a power of two only shifts
the other magnitude, which keeps it representable. -/
theorem multiplicationFollowsItsTable : Obligations.MultiplicationFollowsItsTable := by
  refine ⟨fun a b => ⟨fun h => h.elim (isNaN_fmul_left b) (isNaN_fmul_right a), fun h => ?_, fmul_inf_left,
    fmul_inf_right, fun hz hb => fmul_zero (isFinite_of_isZero hz) hb (.inl hz),
    fun hz ha => fmul_zero ha (isFinite_of_isZero hz) (.inr hz), fun ha hb hza hzb => ?_⟩,
    fun k hk x hx hfin hge => ?_⟩
  · rcases h with ⟨ha, hb⟩ | ⟨ha, hb⟩
    · rw [fmul_inf_zero ha hb, isNaN_nanWord]
    · rw [fmul_zero_inf ha hb, isNaN_nanWord]
  · rw [fmul_rounds ha hb hza hzb, val_mul_eq]
    exact roundsTo_rnd32 _ _ _ (by positivity)
  · obtain ⟨hkfin, hexp, hfrac⟩ := fields_of_mem_multipliers k hk
    exact fmul_pow_two_exact hkfin (magUnits_of_ffrac_zero hexp hfrac) hx hfin hge

/-! ### Division, one equation per line of R66 -/

theorem fdiv_infs {a b : F32} (ha : isInf a = true) (hb : isInf b = true) : fdiv a b = nanWord .div a b := by
  simp [fdiv, ha, hb]

theorem fdiv_zeros {a b : F32} (ha : isZero a = true) (hb : isZero b = true) : fdiv a b = nanWord .div a b := by
  simp [fdiv, ha, hb]

theorem fdiv_inf_finite {a b : F32} (ha : isInf a = true) (hb : isFinite b = true) :
    fdiv a b = infOf (fsign a ^^ fsign b) := by
  simp [fdiv, isNaN_of_isInf ha, isZero_of_isInf ha, isNaN_of_isFinite hb, isInf_of_isFinite hb, ha]

theorem fdiv_finite_inf {a b : F32} (ha : isFinite a = true) (hb : isInf b = true) :
    fdiv a b = zeroOf (fsign a ^^ fsign b) := by
  simp [fdiv, isNaN_of_isInf hb, isZero_of_isInf hb, isNaN_of_isFinite ha, isInf_of_isFinite ha, hb]

theorem fdiv_by_zero {a b : F32} (ha : isFinite a = true) (hza : isZero a = false) (hb : isZero b = true) :
    fdiv a b = infOf (fsign a ^^ fsign b) := by
  have hfb := isFinite_of_isZero hb
  simp [fdiv, isNaN_of_isFinite ha, isInf_of_isFinite ha, isNaN_of_isFinite hfb, isInf_of_isFinite hfb, hza, hb]

theorem fdiv_of_zero {a b : F32} (ha : isZero a = true) (hb : isFinite b = true) (hzb : isZero b = false) :
    fdiv a b = zeroOf (fsign a ^^ fsign b) := by
  have hfa := isFinite_of_isZero ha
  simp [fdiv, isNaN_of_isFinite hfa, isInf_of_isFinite hfa, isNaN_of_isFinite hb, isInf_of_isFinite hb, ha, hzb]

theorem fdiv_rounds {a b : F32} (ha : isFinite a = true) (hb : isFinite b = true) (hza : isZero a = false)
    (hzb : isZero b = false) :
    fdiv a b = rnd32 (fsign a ^^ fsign b) (magUnits a * 2 ^ 149) (magUnits b) (fsign a ^^ fsign b) := by
  simp [fdiv, isNaN_of_isFinite ha, isNaN_of_isFinite hb, isInf_of_isFinite ha, isInf_of_isFinite hb, hza, hzb]

theorem val_div_eq (a b : F32) :
    val a / val b = sgn (fsign a ^^ fsign b) * (((magUnits a * 2 ^ 149 : ℕ) : ℚ) / (magUnits b : ℚ)) / 2 ^ 149 := by
  have hinv : (sgn (fsign b))⁻¹ = sgn (fsign b) := inv_eq_of_mul_eq_one_right (sgn_mul_self _)
  rw [val_eq_sgn, val_eq_sgn, sgn_xor, div_div_div_cancel_right₀ (by positivity), mul_div_mul_comm,
    div_eq_mul_inv (sgn _), hinv]
  push_cast
  ring

/-- Settles O22: the lines of the table, and on the last one the quotient of magnitudes is the exact quotient. -/
theorem divisionFollowsItsTable : Obligations.DivisionFollowsItsTable := by
  intro a b
  refine ⟨fun h => h.elim (isNaN_fdiv_left b) (isNaN_fdiv_right a), fun ha hb => ?_, fun ha hb => ?_,
    fdiv_inf_finite, fdiv_finite_inf, fdiv_by_zero, fdiv_of_zero, fun ha hb hza hzb => ?_⟩
  · rw [fdiv_infs ha hb, isNaN_nanWord]
  · rw [fdiv_zeros ha hb, isNaN_nanWord]
  · rw [fdiv_rounds ha hb hza hzb, val_div_eq]
    exact roundsTo_rnd32 _ _ _ (magUnits_pos hzb)

end Sys2Proof.Proofs
end

section
/-! The comparisons and `fmax` of 40_numerics.md (R67 to R69), and the two conversions (R70, R71). -/

namespace Sys2Proof.Proofs

open Sys2Proof Sys2Proof.Machine

/-! ### The order of R67 -/

theorem flt_of_nan {a b : F32} (h : isNaN a = true ∨ isNaN b = true) : flt a b = false := by
  rcases h with h | h <;> simp [flt, h]

theorem fle_of_nan {a b : F32} (h : isNaN a = true ∨ isNaN b = true) : fle a b = false := by
  rcases h with h | h <;> simp [fle, h]

theorem flt_iff_orderKey {a b : F32} (ha : isNaN a = false) (hb : isNaN b = false) :
    flt a b = true ↔ orderKey a < orderKey b := by simp [flt, ha, hb]

theorem fle_iff_not_flt {a b : F32} (ha : isNaN a = false) (hb : isNaN b = false) :
    fle a b = true ↔ flt b a = false := by simp [fle, ha, hb]

theorem orderKey_finite {w : F32} (h : isFinite w = true) : orderKey w = units w := by
  simp [orderKey, isInf_of_isFinite h]

theorem orderKey_negInf {w : F32} (h : isInf w = true) (hs : fsign w = true) : orderKey w = -(2 ^ 23 * 2 ^ 254) := by
  simp only [orderKey, h, hs, if_true]

theorem orderKey_posInf {w : F32} (h : isInf w = true) (hs : fsign w = false) : orderKey w = 2 ^ 23 * 2 ^ 254 := by
  simp only [orderKey, h, hs, if_true, Bool.false_eq_true, if_false]

/-- Every finite value lies strictly between the places of the infinities. -/
theorem units_between {w : F32} (h : isFinite w = true) :
    -(2 ^ 23 * 2 ^ 254) < units w ∧ units w < 2 ^ 23 * 2 ^ 254 := by
  have hle := magUnits_le_maxUnits h
  have hmax : maxUnits < 2 ^ 23 * 2 ^ 254 := by decide +kernel
  have habs : |units w| < 2 ^ 23 * 2 ^ 254 := by
    rw [← Int.natCast_natAbs, natAbs_units]
    exact_mod_cast hle.trans_lt hmax
  exact abs_lt.1 habs

theorem val_lt_iff (a b : F32) : val a < val b ↔ units a < units b := by
  rw [val, val, div_lt_div_iff_of_pos_right (by positivity), Int.cast_lt]

theorem flt_inf_finite {a b : F32} (ha : isInf a = true) (hb : isFinite b = true) :
    flt a b = true ↔ fsign a = true := by
  obtain ⟨hlo, hhi⟩ := units_between hb
  rw [flt_iff_orderKey (isNaN_of_isInf ha) (isNaN_of_isFinite hb), orderKey_finite hb]
  cases hs : fsign a with
  | true => simpa only [orderKey_negInf ha hs, iff_true] using hlo
  | false => simpa only [orderKey_posInf ha hs, Bool.false_eq_true, iff_false, not_lt] using hhi.le

theorem flt_finite_inf {a b : F32} (ha : isInf a = true) (hb : isFinite b = true) :
    flt b a = true ↔ fsign a = false := by
  obtain ⟨hlo, hhi⟩ := units_between hb
  rw [flt_iff_orderKey (isNaN_of_isFinite hb) (isNaN_of_isInf ha), orderKey_finite hb]
  cases hs : fsign a with
  | true => simpa only [orderKey_negInf ha hs, Bool.true_eq_false, iff_false, not_lt] using hlo.le
  | false => simpa only [orderKey_posInf ha hs, iff_true] using hhi

theorem flt_infs {a b : F32} (ha : isInf a = true) (hb : isInf b = true) :
    flt a b = true ↔ fsign a = true ∧ fsign b = false := by
  rw [flt_iff_orderKey (isNaN_of_isInf ha) (isNaN_of_isInf hb)]
  cases hsa : fsign a <;> cases hsb : fsign b <;>
    simp [orderKey_negInf, orderKey_posInf, ha, hb, hsa, hsb]

/-- Settles O23: the order of the places is the order of values on finite words, and the infinities lie beyond them. -/
theorem comparisonsFollowTheOrder : Obligations.ComparisonsFollowTheOrder := by
  intro a b
  refine ⟨fun h => ⟨flt_of_nan h, fle_of_nan h⟩, fun ha hb => ?_,
    fun ha hb => ⟨flt_inf_finite ha hb, flt_finite_inf ha hb⟩, flt_infs, fle_iff_not_flt⟩
  rw [flt_finite ha hb, decide_eq_true_iff, val_lt_iff]

/-! ### `fmax` and `isFinite` -/

theorem fmax_of_flt {a b : F32} (h : flt b a = true) : fmax a b = a := if_pos h

theorem fmax_of_not_flt {a b : F32} (h : flt b a = false) : fmax a b = b := if_neg (by simp [h])

/-- R69: `isFinite` is the test of the exponent field. -/
theorem isFinite_iff_exponentField (w : F32) : isFinite w = true ↔ w.extractLsb' 23 8 ≠ 255#8 := by
  rw [isFinite_iff_fexp, fexp, ne_eq, ne_eq, ← BitVec.toNat_inj]
  rfl

/-- Settles O24: the two branches of `fmax`; a NaN makes the comparison false. -/
theorem maximumAndFinitenessTests : Obligations.MaximumAndFinitenessTests :=
  ⟨fun _ _ => ⟨fmax_of_flt, fmax_of_not_flt⟩, fun _ _ h => fmax_of_not_flt (flt_of_nan h.symm),
    fun w => ⟨isFinite_iff_exponentField w, isFinite_iff w⟩⟩

/-! ### Conversions -/

theorem i2f_zero : i2f 0 = posZero := by decide

/-- A nonzero sample is a representable whole number of units, so that no rounding happens (R70). -/
theorem i2f_of_ne_zero {n : Sample} (hn : n.toNat ≠ 0) :
    i2f n = finiteWord false (n.toNat * 2 ^ 149) ∧
      Representable (n.toNat * 2 ^ 149) ∧ n.toNat * 2 ^ 149 ≤ maxUnits := by
  have hlt := n.isLt
  have hrep : Representable (n.toNat * 2 ^ 149) := ⟨n.toNat, 149, by omega, rfl⟩
  have hmax : n.toNat * 2 ^ 149 ≤ maxUnits :=
    Nat.mul_le_mul (by omega) (Nat.pow_le_pow_right (by norm_num) (by norm_num))
  have hword := rnd32_of_representable false false (Nat.mul_ne_zero hn (by positivity)) one_pos hrep hmax
  rw [mul_one] at hword
  exact ⟨hword, hrep, hmax⟩

theorem i2f_spec (n : Sample) :
    isFinite (i2f n) = true ∧ fsign (i2f n) = false ∧ magUnits (i2f n) = n.toNat * 2 ^ 149 := by
  rcases eq_or_ne n.toNat 0 with hzero | hne
  · obtain rfl : n = 0 := BitVec.eq_of_toNat_eq hzero
    decide
  · obtain ⟨hword, hrep, hmax⟩ := i2f_of_ne_zero hne
    obtain ⟨hfin, hmag⟩ := finiteWord_spec false hrep hmax
    rw [hword]
    exact ⟨hfin, fsign_finiteWord _ _, hmag⟩

/-- Settles O25: a sample's word has the sample's magnitude, with sign 0. -/
theorem sampleConversionIsExact : Obligations.SampleConversionIsExact := by
  refine ⟨i2f_zero, fun n => ?_⟩
  obtain ⟨hfin, hsign, hmag⟩ := i2f_spec n
  refine ⟨hfin, ?_⟩
  rw [val_eq_sgn, hsign, hmag, sgn, if_neg Bool.false_ne_true, one_mul, Nat.cast_mul, Nat.cast_pow, Nat.cast_ofNat,
    mul_div_cancel_right₀ _ (by positivity)]

theorem le_val_iff (z : ℤ) (w : F32) : (z : ℚ) ≤ val w ↔ z * 2 ^ 149 ≤ units w := by
  rw [val, le_div_iff₀ (by positivity)]
  exact_mod_cast Iff.rfl

/-- On the range R71 defines, `f2i_trunc` is the quotient of the magnitude by one. -/
theorem f2iTrunc_of_range {w : F32} (hfin : isFinite w = true) (hlo : 2 ^ 149 ≤ units w)
    (hhi : units w < 255 * 2 ^ 149) : f2iTrunc w = BitVec.ofNat 8 (magUnits w / 2 ^ 149) := by
  have hone : units one = 2 ^ 149 := by decide +kernel
  have hlimit : units 0x437F0000#32 = 255 * 2 ^ 149 := by decide +kernel
  have hge : fle one w = true := by
    rw [fle_finite (by decide) hfin, hone]
    exact decide_eq_true hlo
  have hlt : flt w 0x437F0000#32 = true := by
    rw [flt_finite hfin (by decide), hlimit]
    exact decide_eq_true hhi
  rw [f2iTrunc, hge, hlt]
  rfl

/-- Settles O26: in the range the value is the magnitude over `2^149`, and the floor of that fits in eight bits. -/
theorem truncationIsTheFloor : Obligations.TruncationIsTheFloor := by
  intro w hfin hlo hhi
  have hlo' : 2 ^ 149 ≤ units w := by simpa using (le_val_iff 1 w).1 (by exact_mod_cast hlo)
  have hhi' : units w < 255 * 2 ^ 149 := not_le.1 fun h => hhi.not_ge (by exact_mod_cast (le_val_iff 255 w).2 h)
  have hunits : units w = magUnits w := by
    have habs := natAbs_units w
    omega
  have hfit : magUnits w / 2 ^ 149 < 2 ^ 8 := by omega
  have hval : val w = (magUnits w : ℚ) / ((2 ^ 149 : ℕ) : ℚ) := by
    rw [val, hunits, Int.cast_natCast, Nat.cast_pow, Nat.cast_ofNat]
  rw [f2iTrunc_of_range hfin hlo' hhi', BitVec.toNat_ofNat, Nat.mod_eq_of_lt hfit, hval,
    Rat.floor_natCast_div_natCast, Int.natCast_div]

end Sys2Proof.Proofs
end

section
/-! Stages 1 and 2 of `PROC`: the perceptual compressor (R91, R92) and the weighted-band mixer (R94). -/

namespace Sys2Proof.Proofs

open Sys2Proof Sys2Proof.Machine

/-! ### The segment of a sample (R92) -/

theorem segmentOf_below_two {s : Sample} (cfg : Cfg) (h : s.toNat < 2) : segmentOf cfg s = none := if_pos h

theorem segmentOf_segA {s : Sample} (cfg : Cfg) (hlo : 2 ≤ s.toNat) (hhi : s.toNat < 10) :
    segmentOf cfg s = some cfg.segA := by
  rw [segmentOf, if_neg (by omega), if_pos hhi]

theorem segmentOf_segB {s : Sample} (cfg : Cfg) (hlo : 10 ≤ s.toNat) (hhi : s.toNat < 100) :
    segmentOf cfg s = some cfg.segB := by
  rw [segmentOf, if_neg (by omega), if_neg (by omega), if_pos hhi]

theorem segmentOf_segC {s : Sample} (cfg : Cfg) (hlo : 100 ≤ s.toNat) : segmentOf cfg s = some cfg.segC := by
  rw [segmentOf, if_neg (by omega), if_neg (by omega), if_neg (by omega)]

/-! ### The compressor (R91) -/

theorem compress_of_no_segment {cfg : Cfg} {s : Sample} (h : segmentOf cfg s = none) : compress cfg s = posZero := by
  rw [compress, h]

theorem compress_of_segment {cfg : Cfg} {s : Sample} {g : Seg} (h : segmentOf cfg s = some g) :
    compress cfg s = quadratic g (i2f s) := by
  rw [compress, h]

/-- Settles O29: the sample's range picks the segment, and the segment's quadratic is the written one. -/
theorem compressionFollowsItsSegments : Obligations.CompressionFollowsItsSegments := fun cfg _ =>
  ⟨fun h => compress_of_no_segment (segmentOf_below_two cfg h),
    fun hlo hhi => compress_of_segment (segmentOf_segA cfg hlo hhi),
    fun hlo hhi => compress_of_segment (segmentOf_segB cfg hlo hhi),
    fun hlo => compress_of_segment (segmentOf_segC cfg hlo)⟩

/-! ### The mixer (R94) -/

/-- Pairing two records band by band lists the seven pairs in ascending band order. -/
theorem zip_toList_bands {α β : Type} (v : Bands α) (w : Bands β) :
    List.zip v.toList w.toList =
      [(v.b0, w.b0), (v.b1, w.b1), (v.b2, w.b2), (v.b3, w.b3), (v.b4, w.b4), (v.b5, w.b5), (v.b6, w.b6)] := rfl

/-- Settles O32: the fold over the seven weighted values, written out from the bias. -/
theorem mixerAddsBandsInOrder : Obligations.MixerAddsBandsInOrder := by
  intro cfg l c
  rw [mix, zip_toList_bands]
  simp only [List.foldl_cons, List.foldl_nil]

end Sys2Proof.Proofs
end

section
/-! Steps 3d and 3e of `PROC`: the clip of the deviation (R112) and the regions of the gain (R113, R114). -/

namespace Sys2Proof.Proofs

open Sys2Proof Sys2Proof.Machine

/-! ### The clip and the commit (R112, R130) -/

theorem clip_of_negative {x : F32} (h : flt x posZero = true) : clip x = posZero := if_pos h

theorem clip_of_not_negative {x : F32} (h : flt x posZero = false) : clip x = x := if_neg (by simp [h])

@[simp] theorem temps_p (cfg : Cfg) (c : ChanId) (ch : Channel) (xt : F32) :
    (temps cfg c ch xt).p = clip (temps cfg c ch xt).s11 := rfl

theorem channelStep_of_commits {cfg : Cfg} {c : ChanId} {ch : Channel} {xt : F32}
    (h : commits (temps cfg c ch xt) = true) :
    channelStep cfg c ch xt =
      { avg := (temps cfg c ch xt).avg1, s1 := (temps cfg c ch xt).s11, env := (temps cfg c ch xt).env1,
        s2 := (temps cfg c ch xt).s21, out := quant (temps cfg c ch xt).s21 } := if_pos h

/-- Settles O38: only the temporary `p` goes through the clip; the commit takes `s11` itself. -/
theorem clipLeavesTheRegisterAlone : Obligations.ClipLeavesTheRegisterAlone := by
  intro cfg c ch xt t
  refine ⟨?clipped, fun hcommits => ?kept⟩
  case clipped =>
    cases hneg : flt t.s11 0x00000000#32 with
    | true => exact (temps_p cfg c ch xt).trans (clip_of_negative hneg)
    | false => exact (temps_p cfg c ch xt).trans (clip_of_not_negative hneg)
  case kept => rw [channelStep_of_commits hcommits]

/-! ### The gain, test by test (R113, R114) -/

section
variable {cfg : Cfg} {c : ChanId} {m : F32}

theorem gain_of_zero_guard (hguard : fle m posZero = true) : gain cfg c m = posZero := if_pos hguard

theorem gain_of_silence (hguard : fle m posZero = false) (hlow : flt m (cutLow cfg c) = true) :
    gain cfg c m = posZero := by
  rw [gain, if_neg (by simp [hguard]), if_pos hlow]

theorem gain_of_ramp (hguard : fle m posZero = false) (hlow : flt m (cutLow cfg c) = false)
    (hhigh : flt m (cutHigh cfg c) = true) : gain cfg c m = fmul (fsub m (cutLow cfg c)) (slope cfg c) := by
  rw [gain, if_neg (by simp [hguard]), if_neg (by simp [hlow]), if_pos hhigh]

theorem gain_of_automatic (hguard : fle m posZero = false) (hlow : flt m (cutLow cfg c) = false)
    (hhigh : flt m (cutHigh cfg c) = false) : gain cfg c m = fdiv one m := by
  rw [gain, if_neg (by simp [hguard]), if_neg (by simp [hlow]), if_neg (by simp [hhigh])]

end

/-- Settles O39: each outcome of the three tests, in the written order, picks its region of the gain. -/
theorem gainHasItsRegions : Obligations.GainHasItsRegions := fun _ _ _ =>
  ⟨gain_of_zero_guard, gain_of_silence, gain_of_ramp, gain_of_automatic⟩

end Sys2Proof.Proofs
end

section
/-! Steps 3g and 3h of `PROC`: the quantizer (R126) and the commit of a channel (R127, R130). -/

namespace Sys2Proof.Proofs

open Sys2Proof Sys2Proof.Machine

/-! ### Commit (R127, R130) -/

theorem channelStep_of_not_commits {cfg : Cfg} {c : ChanId} {ch : Channel} {xt : F32}
    (h : ¬ commits (temps cfg c ch xt) = true) : channelStep cfg c ch xt = ch := if_neg h

/-- Settles O43: the five finiteness tests are the commit condition, whose two outcomes are the two clauses. -/
theorem commitIsAllOrNothing : Obligations.CommitIsAllOrNothing := fun cfg c ch xt =>
  ⟨fun hfinite => channelStep_of_commits ((commits_iff (temps cfg c ch xt)).2 hfinite),
    fun hnot => channelStep_of_not_commits (mt (commits_iff (temps cfg c ch xt)).1 hnot)⟩

/-! ### The bounds of the quantizer, by value -/

theorem val_le_iff (a b : F32) : val a ≤ val b ↔ units a ≤ units b := by
  rw [← not_lt, val_lt_iff, not_lt]

theorem flt_iff_val_lt {a b : F32} (ha : isFinite a = true) (hb : isFinite b = true) :
    flt a b = true ↔ val a < val b := by
  rw [flt_finite ha hb, decide_eq_true_iff, val_lt_iff]

theorem fle_iff_val_le {a b : F32} (ha : isFinite a = true) (hb : isFinite b = true) :
    fle a b = true ↔ val a ≤ val b := by
  rw [fle_finite ha hb, decide_eq_true_iff, val_le_iff]

theorem val_one : val one = 1 := by
  have hunits : units one = 2 ^ 149 := by decide +kernel
  rw [val, hunits]
  norm_num

/-- The limiter's word is 255 (R126). -/
theorem val_limit : val 0x437F0000#32 = 255 := by
  have hunits : units 0x437F0000#32 = 255 * 2 ^ 149 := by decide +kernel
  rw [val, hunits]
  norm_num

theorem flt_one_iff {s : F32} (hfin : isFinite s = true) : flt s one = true ↔ val s < 1 := by
  rw [flt_iff_val_lt hfin (by decide), val_one]

theorem fle_limit_iff {s : F32} (hfin : isFinite s = true) : fle 0x437F0000#32 s = true ↔ 255 ≤ val s := by
  rw [fle_iff_val_le (by decide) hfin, val_limit]

/-! ### The quantizer (R126) -/

/-- The three lines of R126 by value. Between the bounds `f2i_trunc` stands in the range R71 defines it on. -/
theorem quant_by_value {s : F32} (hfin : isFinite s = true) :
    ((quant s).toNat : ℤ) = if val s < 1 then 1 else if 255 ≤ val s then 255 else ⌊val s⌋ := by
  rcases quant_cases s with ⟨hlow, hquant⟩ | ⟨hlow, hhigh, hquant⟩ | ⟨hlow, hhigh, hquant⟩
  case inl =>
    rw [hquant, if_pos ((flt_one_iff hfin).1 hlow)]
    rfl
  all_goals have hone : ¬ val s < 1 := (flt_one_iff hfin).not.1 (by simp [hlow])
  case inr.inl =>
    rw [hquant, if_neg hone, if_pos ((fle_limit_iff hfin).1 hhigh)]
    rfl
  case inr.inr =>
    have hlimit : ¬ 255 ≤ val s := (fle_limit_iff hfin).not.1 (by simp [hhigh])
    rw [hquant, if_neg hone, if_neg hlimit]
    exact truncationIsTheFloor s hfin (not_lt.1 hone) (not_le.1 hlimit)

/-- The three lines of R126 are the floor clamped to `1..255`. -/
theorem quant_eq_clamp_floor {s : F32} (hfin : isFinite s = true) :
    ((quant s).toNat : ℤ) = max 1 (min 255 ⌊val s⌋) := by
  have hlow : val s < 1 ↔ ⌊val s⌋ < 1 := by rw [Int.floor_lt, Int.cast_one]
  have hhigh : 255 ≤ val s ↔ 255 ≤ ⌊val s⌋ := by rw [Int.le_floor, Int.cast_ofNat]
  rw [quant_by_value hfin, if_congr hlow rfl (if_congr hhigh rfl rfl)]
  split
  · omega
  · split <;> omega

theorem quant_mono {s s' : F32} (hfin : isFinite s = true) (hfin' : isFinite s' = true)
    (hle : val s ≤ val s') : (quant s).toNat ≤ (quant s').toNat := by
  have hclamp : max 1 (min 255 ⌊val s⌋) ≤ max 1 (min 255 ⌊val s'⌋) :=
    max_le_max le_rfl (min_le_min le_rfl (Int.floor_mono hle))
  rw [← quant_eq_clamp_floor hfin, ← quant_eq_clamp_floor hfin'] at hclamp
  exact_mod_cast hclamp

/-- Settles O42: the lines of R126 by value; as a clamped floor the quantizer is monotone. -/
theorem quantizerClampsTheIntegerPart : Obligations.QuantizerClampsTheIntegerPart :=
  ⟨fun _ => quant_by_value, fun _ _ hfin hfin' hle => quant_mono hfin hfin' ((fle_iff_val_le hfin hfin').1 hle)⟩

end Sys2Proof.Proofs
end

section
/-! The commands as wholes (45_commands.md): `NOP` (R140), `PROC` (R142), `RST` (R143), the reserved opcode (R144), and
the order of the channels within a `PROC` (R145). -/

namespace Sys2Proof.Proofs

open Sys2Proof Sys2Proof.Machine

/-! ### One channel after another (R145) -/

@[simp] theorem processChannel_chan_same (cfg : Cfg) (l : Bands F32) (c : ChanId) (s : State) :
    (processChannel cfg l c s).chan c = channelStep cfg c (s.chan c) (mix cfg l c) := State.setChan_chan _ _ _

theorem processChannel_chan_other (cfg : Cfg) (l : Bands F32) {c c' : ChanId} (s : State) (h : c' ≠ c) :
    (processChannel cfg l c s).chan c' = s.chan c' := State.setChan_chan_other _ _ h

@[simp] theorem processChannel_port (cfg : Cfg) (l : Bands F32) (c : ChanId) (s : State) :
    (processChannel cfg l c s).port = s.port := State.setChan_port _ _ _

/-- The state after the channels of a list, processed in the list's order. -/
def processInOrder (cfg : Cfg) (l : Bands F32) (order : List ChanId) (s : State) : State :=
  order.foldl (fun acc c => processChannel cfg l c acc) s

@[simp] theorem processInOrder_cons (cfg : Cfg) (l : Bands F32) (c : ChanId) (order : List ChanId) (s : State) :
    processInOrder cfg l (c :: order) s = processInOrder cfg l order (processChannel cfg l c s) := rfl

theorem processInOrder_port (cfg : Cfg) (l : Bands F32) (order : List ChanId) (s : State) :
    (processInOrder cfg l order s).port = s.port := by
  induction order generalizing s with
  | nil => rfl
  | cons c order ih => rw [processInOrder_cons, ih, processChannel_port]

theorem processInOrder_chan_of_not_mem (cfg : Cfg) (l : Bands F32) {c : ChanId} {order : List ChanId} (s : State)
    (h : c ∉ order) : (processInOrder cfg l order s).chan c = s.chan c := by
  induction order generalizing s with
  | nil => rfl
  | cons c' order ih =>
    have hne : c ≠ c' := List.ne_of_not_mem_cons h
    have hrest : c ∉ order := List.not_mem_of_not_mem_cons h
    rw [processInOrder_cons, ih _ hrest, processChannel_chan_other _ _ _ hne]

/-- A channel that comes up once is processed from the registers it had at the start: what comes before and after it
leaves them alone. -/
theorem processInOrder_chan_of_mem (cfg : Cfg) (l : Bands F32) {c : ChanId} {order : List ChanId} (s : State)
    (hnodup : order.Nodup) (hmem : c ∈ order) :
    (processInOrder cfg l order s).chan c = channelStep cfg c (s.chan c) (mix cfg l c) := by
  induction order generalizing s with
  | nil => cases hmem
  | cons c' order ih =>
    obtain ⟨hfresh, hrest⟩ := List.nodup_cons.1 hnodup
    rw [processInOrder_cons]
    rcases List.mem_cons.1 hmem with rfl | hlater
    · rw [processInOrder_chan_of_not_mem _ _ _ hfresh, processChannel_chan_same]
    · have hne : c ≠ c' := fun heq => hfresh (heq ▸ hlater)
      rw [ih _ hrest hlater, processChannel_chan_other _ _ _ hne]

theorem mem_channels (c : ChanId) : c ∈ [ChanId.red, .green, .blue] := by cases c <;> decide

/-- Settles O45: a permutation of the channels holds each of them once, so each is processed from the registers before
the command, as in `processFrame`. -/
theorem channelOrderDoesNotMatter : Obligations.ChannelOrderDoesNotMatter := by
  intro cfg f order s hperm
  have hnodup : order.Nodup := hperm.nodup_iff.2 (by decide)
  have hall (c : ChanId) : c ∈ order := hperm.mem_iff.2 (mem_channels c)
  refine State.ext_chan (fun c => ?chan) ?port
  case chan =>
    rw [processFrame_chan]
    exact processInOrder_chan_of_mem cfg _ s hnodup (hall c)
  case port => exact processInOrder_port cfg _ order s

/-! ### What each command answers -/

@[simp] theorem exec_nop (s : State) : exec .nop s = .next s := rfl

@[simp] theorem exec_proc (s0 s1 s2 s3 s4 s5 s6 : Sample) (s : State) :
    exec (.proc s0 s1 s2 s3 s4 s5 s6) s = .next (processFrame cfgLsa (frameOf s0 s1 s2 s3 s4 s5 s6) s) := rfl

@[simp] theorem exec_rsvd3 (s : State) : exec .rsvd3 s = .refused .reservedOpcode := rfl

/-- A step whose oldest transaction is a word carries out that word's command, with the word taken off the port. -/
theorem step_command (s : State) (w : CmdWord) (es : List PortEvent) :
    step { s with port := .command w :: es } = exec (decode w) { s with port := es } := rfl

/-- Settles O3: `NOP` answers its state, and the decoder looks at the opcode only. -/
theorem nopChangesNothing : Obligations.NopChangesNothing :=
  fun s => ⟨exec_nop s, fun _ => decode_of_opField_zero⟩

/-- Settles O4: `PROC` answers `processFrame`, whose channels are the channel steps; the pseudocode's values are the
temporaries of a channel step, by name, and its last line is the commit. -/
theorem procRunsTheStagesOnEveryChannel : Obligations.ProcRunsTheStagesOnEveryChannel := by
  intro s0 s1 s2 s3 s4 s5 s6 s
  refine ⟨_, exec_proc s0 s1 s2 s3 s4 s5 s6 s, fun c => ?_⟩
  intro l ch xt avg1 d s11 dm env1 p g n s21
  have htemps : temps cfgLsa c ch xt =
      { xt := xt, avg1 := avg1, d := d, s11 := s11, dm := dm, env1 := env1, p := p, g := g, n := n, s21 := s21 } := rfl
  refine ⟨?registers, State.outputs_get _ c⟩
  case registers =>
    have hstep : (processFrame cfgLsa (frameOf s0 s1 s2 s3 s4 s5 s6) s).chan c = channelStep cfgLsa c ch xt :=
      processFrame_chan _ _ _ _
    rw [hstep, channelStep, htemps, commit, commits]

/-- Settles O5: `RST` answers `resetRegs`, which is `Channel.reset` in every channel and its own fixed point. -/
theorem rstClearsEveryRegister : Obligations.RstClearsEveryRegister := by
  refine ⟨fun s => ⟨s.resetRegs, exec_rst s, ?twice, State.resetRegs_chan s⟩, exec_rst State.reset,
    fun _ => decode_of_opField_two⟩
  case twice => rw [exec_rst, State.resetRegs_resetRegs]

/-- Settles O7: a word with op = 3 decodes to the reserved command, and the step carries out what it decodes to. -/
theorem reservedOpcodeIsRefused : Obligations.ReservedOpcodeIsRefused := by
  refine ⟨exec_rsvd3, fun s w es hop => ?_⟩
  have hdecode : decode w = .rsvd3 := decode_of_opField_three hop
  exact ⟨hdecode, by rw [step_command, hdecode, exec_rsvd3]⟩

end Sys2Proof.Proofs
end

section
/-! Exceptions (60_exceptions.md): there are none, so a run stops at a reserved word only (R150). -/

namespace Sys2Proof.Proofs

open Sys2Proof Sys2Proof.Machine

/-! ### What completes -/

theorem decode_ne_rsvd3 {w : CmdWord} (h : isReserved w = false) : decode w ≠ .rsvd3 := by
  intro hdecode
  have hop : opField w = 3#2 := by rw [← opcodeOf_decode, hdecode, opcodeOf]
  simp [isReserved, hop] at h

/-- Every command but the reserved one answers a next state, in every state. -/
theorem exec_completes {i : Instr} (hi : i ≠ .rsvd3) (s : State) : ∃ t, exec i s = .next t := by
  cases i with
  | nop => exact ⟨_, exec_nop s⟩
  | proc s0 s1 s2 s3 s4 s5 s6 => exact ⟨_, exec_proc s0 s1 s2 s3 s4 s5 s6 s⟩
  | rst => exact ⟨_, exec_rst s⟩
  | rsvd3 => exact absurd rfl hi

theorem runEvent_completes {e : PortEvent} (he : ∀ w, e = .command w → isReserved w = false) (s : State) :
    ∃ t, runEvent e s = .next t := by
  cases e with
  | command w => exact exec_completes (decode_ne_rsvd3 (he w rfl)) s
  | hardReset => exact ⟨_, runEvent_hardReset s⟩

/-! ### Runs -/

@[simp] theorem runEvents_nil (s : State) : runEvents [] s = .next s := rfl

theorem runEvents_cons_next {e : PortEvent} {s t : State} (es : List PortEvent) (h : runEvent e s = .next t) :
    runEvents (e :: es) s = runEvents es t := by
  rw [runEvents, h]

theorem noReserved_cons {e : PortEvent} {es : List PortEvent} :
    noReserved (e :: es) ↔ (∀ w, e = .command w → isReserved w = false) ∧ noReserved es := by
  simp only [noReserved, List.mem_cons, or_imp, forall_and, eq_comm]

/-- Settles O53, by induction on the transactions: the first one completes, and the rest run on from its answer. -/
theorem runsWithoutReservedWordsComplete : Obligations.RunsWithoutReservedWordsComplete := by
  intro es
  induction es with
  | nil => exact fun s _ => ⟨s, runEvents_nil s⟩
  | cons e es ih =>
    intro s hes
    obtain ⟨hfirst, hrest⟩ := noReserved_cons.1 hes
    obtain ⟨t, ht⟩ := runEvent_completes hfirst s
    rw [runEvents_cons_next es ht]
    exact ih t hrest

end Sys2Proof.Proofs
end

section
/-! The two reset events (R165), and hardware reset at the level of signals (R166, R168). -/

namespace Sys2Proof.Proofs

open Sys2Proof Sys2Proof.Machine

/-! ### Reset as a transaction -/

/-- `resetRegs` leaves every channel as it is right after hardware reset (R20). -/
theorem resetRegs_chan_eq_reset (s : State) (c : ChanId) : s.resetRegs.chan c = State.reset.chan c := by
  rw [State.resetRegs_chan, State.reset_chan]

/-- Settles O2: both reset events answer `resetRegs`, which is the reset state in every channel. -/
theorem bothResetEventsAgree : Obligations.BothResetEventsAgree := fun s =>
  ⟨s.resetRegs, runEvent_hardReset s, exec_rst s, resetRegs_chan_eq_reset s⟩

/-! ### Reset on the pins -/

/-- Ready is exactly `rst_n` high and no command in progress (R40). -/
theorem cmdReady_iff (b : Block) (p : Pins) : cmdReady b p = true ↔ p.rstN = true ∧ b.busy = none := by
  rw [cmdReady, Bool.and_eq_true, Option.isNone_iff_eq_none]

theorem cmdReady_of_rstN_low (b : Block) {p : Pins} (h : p.rstN = false) : cmdReady b p = false := by
  rw [cmdReady, h, Bool.false_and]

/-- A block that is not ready accepts no word, presented or not (R41). -/
theorem acceptedWord_of_not_ready {b : Block} {p : Pins} (h : cmdReady b p = false) : acceptedWord b p = none := by
  simp [acceptedWord, h]

/-- An edge with `rst_n` low resets the registers and abandons a command in progress (R166, R168). -/
theorem clockEdge_of_rstN_low (b : Block) {p : Pins} (h : p.rstN = false) :
    clockEdge b p = .next { core := b.core.resetRegs, busy := none } := by
  simp [clockEdge, h]

/-- Settles O54: low `rst_n` holds ready low, so nothing is accepted; the edge leaves no command in progress, so ready
follows `rst_n` when it goes high. -/
theorem resetEdgeWorksFromAnyState : Obligations.ResetEdgeWorksFromAnyState := by
  intro b p hlow
  have hnotReady : cmdReady b p = false := cmdReady_of_rstN_low b hlow
  refine ⟨hnotReady, acceptedWord_of_not_ready hnotReady, _, clockEdge_of_rstN_low b hlow, rfl,
    resetRegs_chan_eq_reset b.core, fun q hhigh => ?ready⟩
  case ready => exact (cmdReady_iff _ q).2 ⟨hhigh, rfl⟩

end Sys2Proof.Proofs
end

section
/-! The command word of 30_encoding.md section 2 as a number, and the round trips between words and commands
(R42 to R45). -/

namespace Sys2Proof.Proofs

open Sys2Proof

/-! ### Words as numbers -/

theorem append_toNat {n m : Nat} (x : BitVec n) (y : BitVec m) : (x ++ y).toNat = x.toNat * 2 ^ m + y.toNat := by
  rw [BitVec.toNat_append, ← Nat.shiftLeft_add_eq_or_of_lt y.isLt, Nat.shiftLeft_eq]

theorem opField_toNat (w : CmdWord) : (opField w).toNat = w.toNat / 2 ^ 70 % 4 := by
  rw [opField, BitVec.extractLsb'_toNat, Nat.shiftRight_eq_div_pow]

/-- R48's sum of shifts. -/
theorem encode_proc_toNat (s0 s1 s2 s3 s4 s5 s6 : Sample) :
    (encode (.proc s0 s1 s2 s3 s4 s5 s6)).toNat =
      2 ^ 70 + s6.toNat * 2 ^ 60 + s5.toNat * 2 ^ 50 + s4.toNat * 2 ^ 40 + s3.toNat * 2 ^ 30 + s2.toNat * 2 ^ 20 +
        s1.toNat * 2 ^ 10 + s0.toNat := by
  have hop : (1#2).toNat = 1 := rfl
  simp only [encode, opcodeOf, frameBits, append_toNat, hop]
  omega

theorem opField_encode (i : Instr) : opField (encode i) = opcodeOf i := Laws.opField_append _ _

/-! ### Round trips -/

/-- The slices of an encoded frame are its samples. -/
theorem decode_encode_proc (s0 s1 s2 s3 s4 s5 s6 : Sample) :
    decode (encode (.proc s0 s1 s2 s3 s4 s5 s6)) = .proc s0 s1 s2 s3 s4 s5 s6 := by
  have hword := encode_proc_toNat s0 s1 s2 s3 s4 s5 s6
  have h0 := s0.isLt
  have h1 := s1.isLt
  have h2 := s2.isLt
  have h3 := s3.isLt
  have h4 := s4.isLt
  have h5 := s5.isLt
  have h6 := s6.isLt
  rw [decode_of_opField_one (opField_encode _)]
  congr 1 <;> (apply BitVec.eq_of_toNat_eq; rw [sampleField_toNat, hword]; omega)

/-- Settles O11: the opcode field picks the constructor back, and a frame comes back slice by slice. -/
theorem decodeInvertsEncode : Obligations.DecodeInvertsEncode := by
  intro i
  cases i with
  | nop => exact decode_of_opField_zero (opField_encode .nop)
  | proc s0 s1 s2 s3 s4 s5 s6 => exact decode_encode_proc s0 s1 s2 s3 s4 s5 s6
  | rst => exact decode_of_opField_two (opField_encode .rst)
  | rsvd3 => exact decode_of_opField_three (opField_encode .rsvd3)

/-- Only `PROC` has operands in its frame field. -/
theorem frameBits_of_opcodeOf_ne_one {i : Instr} (h : opcodeOf i ≠ 1#2) : frameBits i = 0#70 := by
  cases i with
  | proc => exact absurd rfl h
  | nop => rfl
  | rst => rfl
  | rsvd3 => rfl

/-- The seven slices and the opcode cover a `PROC` word. -/
theorem encode_decode_of_opField_one {w : CmdWord} (h : opField w = 1#2) : encode (decode w) = w := by
  have hop : w.toNat / 2 ^ 70 % 4 = 1 := by rw [← opField_toNat, h]; rfl
  have hlt := w.isLt
  apply BitVec.eq_of_toNat_eq
  rw [decode_of_opField_one h, encode_proc_toNat]
  simp only [sampleField_toNat]
  omega

/-- Of a word that is not `PROC` the decoder sees the opcode field alone (R45). -/
theorem decode_congr_of_opField_ne_one {w w' : CmdWord} (hne : opField w ≠ 1#2) (h : opField w = opField w') :
    decode w = decode w' := by
  rcases opcode_cases (opField w) with hop | hop | hop | hop
  · rw [decode_of_opField_zero hop, decode_of_opField_zero (h ▸ hop)]
  · exact absurd hop hne
  · rw [decode_of_opField_two hop, decode_of_opField_two (h ▸ hop)]
  · rw [decode_of_opField_three hop, decode_of_opField_three (h ▸ hop)]

/-- Settles O12: a `PROC` word is its opcode and slices; another word's command has its opcode and no operand. -/
theorem encodeInvertsDecode : Obligations.EncodeInvertsDecode := by
  refine ⟨fun w => encode_decode_of_opField_one, fun w w' => decode_congr_of_opField_ne_one, fun w hne => ?canonical⟩
  case canonical => rw [encode, frameBits_of_opcodeOf_ne_one (by rwa [opcodeOf_decode]), opcodeOf_decode]

/-- Settles O10: the opcode of each word picks the row, and the slices of the two `PROC` words are evaluated. -/
theorem writtenOutWordsDecode : Obligations.WrittenOutWordsDecode :=
  ⟨decode_of_opField_zero (by decide), decode_of_opField_zero (by decide), decode_of_opField_one (by decide),
    decode_of_opField_one (by decide), decode_of_opField_two (by decide), decode_of_opField_three (by decide)⟩

end Sys2Proof.Proofs
end

section
/-! Runs of transactions (R36) and the step that carries one out (R41); what is left of a history after `RST` (R143). -/

namespace Sys2Proof.Proofs

open Sys2Proof Sys2Proof.Machine

/-! ### One transaction -/

theorem step_of_port_cons {s : State} {e : PortEvent} {es : List PortEvent} (h : s.port = e :: es) :
    step s = runEvent e { s with port := es } := by
  rw [step, runPort, h]
  simp only [State.popPort, h, List.tail_cons]

theorem step_of_port_nil {s : State} (h : s.port = []) : step s = .next s := by
  rw [step, runPort, h]

/-- Settles O8: the head of the port picks the transaction. -/
theorem stepRunsTheDecodedCommand : Obligations.StepRunsTheDecodedCommand := by
  refine ⟨fun s w es i hport hdecode => ?command, fun s es hport => step_of_port_cons hport,
    fun s => step_of_port_nil, fun s nbits w i hword => ?fetched⟩
  case command =>
    subst hdecode
    exact step_of_port_cons hport
  case fetched =>
    rw [decodeTableWord] at hword
    split at hword
    · cases hword
      exact step_of_port_cons (State.withFetchWord_port s nbits w)
    · cases hword

/-- Settles O59: each of the four is computed from the registers, with `port` carried along. -/
theorem everyCommandLeavesThePort : Obligations.EveryCommandLeavesThePort := fun s =>
  ⟨⟨s, exec_nop s, rfl⟩, fun s0 s1 s2 s3 s4 s5 s6 => ⟨_, exec_proc s0 s1 s2 s3 s4 s5 s6 s, processFrame_port _ _ _⟩,
    ⟨_, exec_rst s, State.resetRegs_port s⟩, ⟨_, runEvent_hardReset s, State.resetRegs_port s⟩⟩

/-! ### The fold of transactions (R36) -/

/-- No transaction reads the port: another list of transactions to come is carried along unchanged. -/
theorem runEvent_next_withPort {e : PortEvent} {s t : State} (es : List PortEvent) (h : runEvent e s = .next t) :
    runEvent e { s with port := es } = .next { t with port := es } := by
  cases e with
  | hardReset => cases h; rfl
  | command w =>
    rw [runEvent] at h ⊢
    rcases exec_cases h with ⟨hi, rfl⟩ | ⟨s0, s1, s2, s3, s4, s5, s6, hi, rfl⟩ | ⟨hi, rfl⟩
    · rw [hi, exec_nop]
    · rw [hi, exec_proc]; rfl
    · rw [hi, exec_rst]; rfl

/-- A refusal depends on the word alone. -/
theorem runEvent_refused {e : PortEvent} {s : State} {r : Refusal} (h : runEvent e s = .refused r) (s' : State) :
    runEvent e s' = .refused r := by
  cases e with
  | hardReset => cases h
  | command w =>
    rw [runEvent] at h ⊢
    cases hi : decode w with
    | rsvd3 =>
      rw [hi, exec_rsvd3] at h
      rw [exec_rsvd3, h]
    | nop => rw [hi, exec_nop] at h; cases h
    | proc => rw [hi, exec_proc] at h; cases h
    | rst => rw [hi, exec_rst] at h; cases h

theorem runEvents_cons_refused {e : PortEvent} {s : State} {r : Refusal} (es : List PortEvent)
    (h : runEvent e s = .refused r) : runEvents (e :: es) s = .refused r := by
  rw [runEvents, h]

theorem run_of_step_next (M : Host.Core) {s t : M.State} (n : Nat) (h : M.step s = .next t) :
    M.run (n + 1) s = M.run n t := by
  rw [Host.Core.run, h]

theorem run_of_step_refused (M : Host.Core) {s : M.State} {r : M.Refusal} (n : Nat) (h : M.step s = .refused r) :
    M.run (n + 1) s = .refused r := by
  rw [Host.Core.run, h]

theorem core_run_next {s t : State} (n : Nat) (h : step s = .next t) :
    Host.Core.run core (n + 1) s = Host.Core.run core n t := run_of_step_next core n h

theorem core_run_refused {s : State} {r : Refusal} (n : Nat) (h : step s = .refused r) :
    Host.Core.run core (n + 1) s = .refused r := run_of_step_refused core n h

/-- Settles O9, by induction on the transactions: the step takes the first one off the port, which the fold does too,
and leaves the rest there. -/
theorem runIsTheLeftFold : Obligations.RunIsTheLeftFold := by
  intro es
  induction es with
  | nil => exact fun s => rfl
  | cons e es ih =>
    intro s
    have hstep : step { s with port := e :: es } = runEvent e { s with port := es } := step_of_port_cons rfl
    cases hrun : runEvent e { s with port := es } with
    | next t =>
      have hport : t.port = es := runEvent_port hrun
      have hrest : ({ t with port := es } : State) = t := by rw [← hport]
      have hfold : runEvents es { t with port := [] } = runEvents (e :: es) { s with port := [] } :=
        (runEvents_cons_next es (runEvent_next_withPort [] hrun)).symm
      rw [List.length_cons, core_run_next es.length (hstep.trans hrun), ← hfold, ← ih t, hrest]
    | refused r =>
      rw [List.length_cons, core_run_refused es.length (hstep.trans hrun),
        runEvents_cons_refused es (runEvent_refused hrun _)]
      rfl
    | fault r => cases r

/-! ### After an `RST` (R143) -/

/-- Settles O6: the `RST` and the hardware reset leave the same registers, and both histories have one port. -/
theorem nothingBeforeRstShows : Obligations.NothingBeforeRstShows := by
  intro w ws s s' hop hport
  have hregs : s.resetRegs = s'.resetRegs := State.ext_chan (fun c => by simp only [State.resetRegs_chan]) hport
  have hrst (u : State) : runEvent (.command w) u = .next u.resetRegs := by
    rw [runEvent, decode_of_opField_two hop, exec_rst]
  have hrun (u : State) : runCommands (w :: ws) u = runEvents (ws.map PortEvent.command) u.resetRegs :=
    runEvents_cons_next _ (hrst u)
  rw [hrun, hrun, hregs, runEvents_cons_next _ (runEvent_hardReset s')]
  exact ⟨rfl, rfl⟩

end Sys2Proof.Proofs
end

section
/-! The command port at the level of signals (30_encoding.md section 1): acceptance, latency, completion (R41, R50), and
clock edges as transactions. -/

namespace Sys2Proof.Proofs

open Sys2Proof Sys2Proof.Machine

/-! ### One clock edge -/

theorem complete_of_runEvent_next {b : Block} {w : CmdWord} {t : State} (h : runEvent (.command w) b.core = .next t) :
    b.complete w = .next { core := t, busy := none } := by
  rw [Block.complete, h]

/-- With a command in progress there is no acceptance (R41). -/
theorem acceptedWord_of_busy {b : Block} (p : Pins) (h : b.busy ≠ none) : acceptedWord b p = none := by
  refine acceptedWord_of_not_ready (Bool.eq_false_iff.2 fun hready => ?_)
  obtain ⟨-, hnone⟩ := (cmdReady_iff b p).1 hready
  exact h hnone

/-- A clock edge is refused only when the command that it ends is. -/
theorem clockEdge_refused_cases {b : Block} {p : Pins} {r : Refusal} (h : clockEdge b p = .refused r) :
    p.rstN = true ∧ ∃ k, b.busy = some k ∧ k.left ≤ 1 ∧ runEvent (.command k.word) b.core = .refused r := by
  cases hr : p.rstN with
  | false => rw [clockEdge_of_rstN_low b hr] at h; cases h
  | true =>
    refine ⟨rfl, ?_⟩
    cases hb : b.busy with
    | none =>
      cases hw : acceptedWord b p with
      | none => simp [clockEdge, hr, hb, hw] at h
      | some w => rw [clockEdge_accepts hw] at h; cases h
    | some k =>
      by_cases hl : k.left ≤ 1
      · rw [clockEdge_completes hr hb hl, Block.complete] at h
        cases hrun : runEvent (.command k.word) b.core with
        | next t => rw [hrun] at h; cases h
        | fault r' => cases r'
        | refused r' => rw [hrun] at h; cases h; exact ⟨k, rfl, hl, hrun⟩
      · rw [clockEdge_counts hr hb (not_le.1 hl)] at h
        cases h

/-! ### What an edge ends -/

theorem edgeEvent_reset (b : Block) {p : Pins} (hr : p.rstN = false) : edgeEvent b p = some .hardReset := by
  simp [edgeEvent, hr]

theorem edgeEvent_ready {b : Block} {p : Pins} (hr : p.rstN = true) (hb : b.busy = none) : edgeEvent b p = none := by
  simp [edgeEvent, hr, hb]

theorem edgeEvent_counts {b : Block} {p : Pins} {k : Busy} (hr : p.rstN = true) (hb : b.busy = some k)
    (hl : ¬ k.left ≤ 1) : edgeEvent b p = none := by
  simp [edgeEvent, hr, hb, not_le.1 hl]

theorem edgeEvent_completes {b : Block} {p : Pins} {k : Busy} (hr : p.rstN = true) (hb : b.busy = some k)
    (hl : k.left ≤ 1) : edgeEvent b p = some (.command k.word) := by
  simp [edgeEvent, hr, hb, hl]

/-- An edge that answers a next block carries out the transaction it ends, or ends none and leaves the registers. -/
theorem clockEdge_next_event {b b' : Block} {p : Pins} (h : clockEdge b p = .next b') :
    (∃ e, edgeEvent b p = some e ∧ runEvent e b.core = .next b'.core) ∨
    (edgeEvent b p = none ∧ b'.core = b.core) := by
  rcases clockEdge_cases h with ⟨hr, rfl⟩ | ⟨hr, k, hb, hl, t, ht, rfl⟩ | ⟨hr, k, hb, hl, rfl⟩ |
    ⟨hr, hb, w, hw, rfl⟩ | ⟨hr, hb, hw, rfl⟩
  · exact .inl ⟨_, edgeEvent_reset b hr, runEvent_hardReset b.core⟩
  · exact .inl ⟨_, edgeEvent_completes hr hb hl, ht⟩
  · exact .inr ⟨edgeEvent_counts hr hb hl, rfl⟩
  · exact .inr ⟨edgeEvent_ready hr hb, rfl⟩
  · exact .inr ⟨edgeEvent_ready hr hb, rfl⟩

/-- Settles O56: with a command in progress the edge is decided by it; only an edge that ends something writes. -/
theorem busyBlockIgnoresThePort : Obligations.BusyBlockIgnoresThePort := by
  refine ⟨fun b p q hbusy hp hq => ⟨?same, acceptedWord_of_busy p hbusy⟩, fun b b' p hedge hnone => ?quiet⟩
  case same =>
    obtain ⟨k, hk⟩ := Option.ne_none_iff_exists'.1 hbusy
    rcases le_or_gt k.left 1 with hl | hl
    · rw [clockEdge_completes hp hk hl, clockEdge_completes hq hk hl]
    · rw [clockEdge_counts hp hk hl, clockEdge_counts hq hk hl]
  case quiet =>
    rcases clockEdge_next_event hedge with ⟨e, he, -⟩ | ⟨-, hcore⟩
    · rw [hnone] at he
      cases he
    · exact ⟨by rw [Block.outputs, Block.outputs, hcore], hcore⟩

/-! ### From acceptance to completion -/

/-- A command in progress shows nothing for fewer edges than it has left. -/
theorem runClock_counts (s : State) (w : CmdWord) (n : Nat) (ps : List Pins) (hps : ∀ q ∈ ps, q.rstN = true)
    (hlen : ps.length < n) :
    runClock ps { core := s, busy := some { word := w, left := n } } =
      .next { core := s, busy := some { word := w, left := n - ps.length } } := by
  induction ps generalizing n with
  | nil => rfl
  | cons p ps ih =>
    obtain ⟨hp, hps⟩ := List.forall_mem_cons.1 hps
    rw [List.length_cons] at hlen ⊢
    rw [runClock_cons_next ps (clockEdge_counts hp rfl (by omega : 1 < n)), ih (n - 1) hps (by omega)]
    congr 4
    omega

/-- It ends, whole, at the last of the edges it has left. -/
theorem runClock_completes {s t : State} {w : CmdWord} (ht : runEvent (.command w) s = .next t) (n : Nat)
    (ps : List Pins) (hps : ∀ q ∈ ps, q.rstN = true) (hlen : ps.length = n + 1) :
    runClock ps { core := s, busy := some { word := w, left := n + 1 } } = .next { core := t, busy := none } := by
  induction n generalizing ps with
  | zero =>
    obtain ⟨p, rfl⟩ := List.length_eq_one_iff.1 hlen
    have hedge : clockEdge { core := s, busy := some { word := w, left := 0 + 1 } } p =
        .next { core := t, busy := none } := by
      rw [clockEdge_completes (hps p List.mem_cons_self) rfl le_rfl]
      exact complete_of_runEvent_next (b := { core := s, busy := _ }) ht
    rw [runClock_cons_next [] hedge, runClock_nil]
  | succ n ih =>
    obtain ⟨p, rest, rfl⟩ := List.exists_cons_of_length_eq_add_one hlen
    obtain ⟨hp, hrest⟩ := List.forall_mem_cons.1 hps
    rw [runClock_cons_next rest (clockEdge_counts hp rfl (by omega : 1 < n + 1 + 1))]
    exact ih rest hrest (Nat.succ.inj hlen)

/-- Settles O55: the accepting edge starts the count at the latency, which is at least 1. -/
theorem acceptedCommandCompletesAtOnce : Obligations.AcceptedCommandCompletesAtOnce := by
  intro b p w haccept
  have hfirst (ps : List Pins) := runClock_cons_next ps (clockEdge_accepts haccept)
  refine ⟨fun ps hps hlen => ?before, fun ps t hps hlen ht => ?after⟩
  case before => rw [hfirst, runClock_counts _ _ _ _ hps hlen]
  case after =>
    obtain ⟨n, hn⟩ := Nat.exists_eq_add_of_le' (latency_pos w)
    rw [hfirst, hn]
    exact runClock_completes ht n ps hps (hlen.trans hn)

/-! ### Clock edges as transactions -/

theorem edgeEvents_cons_next {b b' : Block} {p : Pins} (ps : List Pins) (h : clockEdge b p = .next b') :
    edgeEvents (p :: ps) b = (edgeEvent b p).toList ++ edgeEvents ps b' := by
  rw [edgeEvents, h]

/-- The first edge's part of the transactions is carried out, and leaves what the edge leaves. -/
theorem runEvents_edgeEvents_cons {b b' : Block} {p : Pins} (ps : List Pins) (h : clockEdge b p = .next b') :
    runEvents (edgeEvents (p :: ps) b) b.core = runEvents (edgeEvents ps b') b'.core := by
  rw [edgeEvents_cons_next ps h]
  rcases clockEdge_next_event h with ⟨e, he, hrun⟩ | ⟨he, hcore⟩
  · rw [he, Option.toList_some, List.singleton_append, runEvents_cons_next _ hrun]
  · rw [he, Option.toList_none, List.nil_append, hcore]

/-- An edge that is refused ends the run of transactions with the same reason. -/
theorem runEvents_edgeEvents_refused {b : Block} {p : Pins} {r : Refusal} (ps : List Pins)
    (h : clockEdge b p = .refused r) : runEvents (edgeEvents (p :: ps) b) b.core = .refused r := by
  obtain ⟨hr, k, hb, hl, hrun⟩ := clockEdge_refused_cases h
  rw [edgeEvents, h, edgeEvent_completes hr hb hl]
  exact runEvents_cons_refused _ hrun

theorem runClock_cons_refused {b : Block} {p : Pins} {r : Refusal} (ps : List Pins)
    (h : clockEdge b p = .refused r) : runClock (p :: ps) b = .refused r := by
  rw [runClock, h]

/-- Settles O58, by induction on the edges: one edge and the transaction that it ends have the same outcome. -/
theorem clockEdgesRefineTransactions : Obligations.ClockEdgesRefineTransactions := by
  intro ps
  induction ps with
  | nil =>
    intro b
    refine ⟨fun b' h => ?_, fun r h => ?_⟩
    · cases h; rfl
    · cases h
  | cons p ps ih =>
    intro b
    cases hedge : clockEdge b p with
    | next b' =>
      rw [runClock_cons_next ps hedge, runEvents_edgeEvents_cons ps hedge]
      exact ih b'
    | fault r => cases r
    | refused r =>
      rw [runClock_cons_refused ps hedge, runEvents_edgeEvents_refused ps hedge]
      refine ⟨fun b' h => ?_, fun r' h => ?_⟩
      · cases h
      · cases h; rfl

/-! ### Accepted words as the command sequence -/

/-- The words still owed to the registers: the command in progress, then the words accepted in the run. -/
def owedWords (ps : List Pins) (b : Block) : List CmdWord :=
  (b.busy.map Busy.word).toList ++ acceptedWords ps b

theorem owedWords_of_ready (ps : List Pins) {b : Block} (h : b.busy = none) :
    owedWords ps b = acceptedWords ps b := by
  rw [owedWords, h]
  rfl

theorem acceptedWords_cons_next {b b' : Block} {p : Pins} (ps : List Pins) (h : clockEdge b p = .next b') :
    acceptedWords (p :: ps) b = (acceptedWord b p).toList ++ acceptedWords ps b' := by
  rw [acceptedWords, h]

/-- An edge out of reset carries out the first owed word or leaves registers and owed words as they are. -/
theorem runCommands_owedWords_cons {b b' : Block} {p : Pins} (ps : List Pins) (hr : p.rstN = true)
    (h : clockEdge b p = .next b') :
    runCommands (owedWords (p :: ps) b) b.core = runCommands (owedWords ps b') b'.core := by
  rw [owedWords, owedWords, acceptedWords_cons_next ps h]
  rcases clockEdge_cases h with ⟨hlow, -⟩ | ⟨-, k, hb, hl, t, ht, rfl⟩ | ⟨-, k, hb, hl, rfl⟩ |
    ⟨-, hb, w, hw, rfl⟩ | ⟨-, hb, hw, rfl⟩
  · rw [hr] at hlow
    cases hlow
  · rw [acceptedWord_of_busy p (by simp [hb]), hb]
    exact runEvents_cons_next _ ht
  · rw [acceptedWord_of_busy p (by simp [hb]), hb]
    rfl
  · rw [hw, hb]
    rfl
  · rw [hw, hb]
    rfl

/-- A reset-free run to a ready block carries out every owed word. -/
theorem runCommands_owedWords (ps : List Pins) (b b' : Block) (hps : ∀ p ∈ ps, p.rstN = true)
    (hready : b'.busy = none) (h : runClock ps b = .next b') :
    runCommands (owedWords ps b) b.core = .next b'.core := by
  induction ps generalizing b with
  | nil =>
    cases h
    rw [owedWords_of_ready [] hready]
    rfl
  | cons p ps ih =>
    obtain ⟨hp, hps⟩ := List.forall_mem_cons.1 hps
    cases hedge : clockEdge b p with
    | next b1 =>
      rw [runClock_cons_next ps hedge] at h
      rw [runCommands_owedWords_cons ps hp hedge]
      exact ih b1 hps h
    | fault r => cases r
    | refused r =>
      rw [runClock_cons_refused ps hedge] at h
      cases h

/-- Settles O57: a block that starts ready owes just the words it accepts. -/
theorem acceptedWordsDetermineTheRun : Obligations.AcceptedWordsDetermineTheRun := by
  intro ps b b' hps hstart hend hrun
  rw [← owedWords_of_ready ps hstart]
  exact runCommands_owedWords ps b b' hps hend hrun

end Sys2Proof.Proofs
end

section
/-! The assembler of 30_encoding.md section 4: the word of a command line (R48), `.rep` blocks (R49), and that no
reserved word is produced (R45). -/

namespace Sys2Proof.Proofs

open Sys2Proof Sys2Proof.Machine

/-! ### All answers, or none -/

theorem allSome_cons {α : Type} (a : Option α) (l : List (Option α)) :
    allSome (a :: l) = a.bind fun x => (allSome l).map (x :: ·) := by
  cases a <;> rfl

theorem some_mem_of_allSome {α : Type} {l : List (Option α)} {xs : List α} {x : α} (h : allSome l = some xs)
    (hx : x ∈ xs) : some x ∈ l := by
  induction l generalizing xs with
  | nil => cases h; cases hx
  | cons a l ih =>
    rw [allSome_cons, Option.bind_eq_some_iff] at h
    obtain ⟨y, rfl, hrest⟩ := h
    obtain ⟨ys, hys, rfl⟩ := Option.map_eq_some_iff.1 hrest
    rcases List.mem_cons.1 hx with rfl | htail
    · exact List.mem_cons_self
    · exact List.mem_cons_of_mem _ (ih hys htail)

/-! ### Command lines (R48) -/

theorem wf_proc_iff (ops : List Nat) : (AsmCmd.proc ops).wf = true ↔ ops.length = 7 ∧ ∀ n ∈ ops, n ≤ 1023 := by
  simp [AsmCmd.wf]

theorem assembleCmd_of_not_wf {c : AsmCmd} (h : c.wf = false) : assembleCmd c = none := by
  simp [assembleCmd, h]

theorem assembleCmd_nop : assembleCmd .nop = some (encode .nop) := rfl

theorem assembleCmd_rst : assembleCmd .rst = some (encode .rst) := rfl

theorem assembleCmd_proc {n0 n1 n2 n3 n4 n5 n6 : Nat} (h : ∀ n ∈ [n0, n1, n2, n3, n4, n5, n6], n ≤ 1023) :
    assembleCmd (.proc [n0, n1, n2, n3, n4, n5, n6]) =
      some (encode (.proc (BitVec.ofNat 10 n0) (BitVec.ofNat 10 n1) (BitVec.ofNat 10 n2) (BitVec.ofNat 10 n3)
        (BitVec.ofNat 10 n4) (BitVec.ofNat 10 n5) (BitVec.ofNat 10 n6))) := by
  rw [assembleCmd, if_pos ((wf_proc_iff _).2 ⟨rfl, h⟩)]

/-- Operands up to 1023 fit in their ten bits, so the concatenation is R48's sum of shifts. -/
theorem encode_proc_ofNat {n0 n1 n2 n3 n4 n5 n6 : Nat} (h : ∀ n ∈ [n0, n1, n2, n3, n4, n5, n6], n ≤ 1023) :
    encode (.proc (BitVec.ofNat 10 n0) (BitVec.ofNat 10 n1) (BitVec.ofNat 10 n2) (BitVec.ofNat 10 n3)
        (BitVec.ofNat 10 n4) (BitVec.ofNat 10 n5) (BitVec.ofNat 10 n6)) =
      BitVec.ofNat 72 (2 ^ 70 + n6 * 2 ^ 60 + n5 * 2 ^ 50 + n4 * 2 ^ 40 + n3 * 2 ^ 30 + n2 * 2 ^ 20 + n1 * 2 ^ 10 +
        n0) := by
  simp only [List.forall_mem_cons, List.not_mem_nil, false_imp_iff, implies_true, and_true] at h
  apply BitVec.eq_of_toNat_eq
  rw [encode_proc_toNat]
  simp only [BitVec.toNat_ofNat]
  omega

/-- Settles O15: an ill-formed line has no word, and a well-formed `PROC` line the word of its command. -/
theorem assemblerEncodesCommandLines : Obligations.AssemblerEncodesCommandLines := by
  refine ⟨assembleCmd_nop, assembleCmd_rst, fun ops hops => ?illFormed, fun n0 n1 n2 n3 n4 n5 n6 h => ?wellFormed⟩
  case illFormed => exact assembleCmd_of_not_wf (Bool.eq_false_iff.2 (mt (wf_proc_iff ops).1 hops))
  case wellFormed => rw [assembleCmd_proc h, encode_proc_ofNat h]

/-- A line that has a word is the line of a well-formed command. -/
theorem exists_instr_of_assembleCmd {c : AsmCmd} {w : CmdWord} (h : assembleCmd c = some w) :
    ∃ i : Instr, i.wf = true ∧ w = encode i := by
  unfold assembleCmd at h
  split at h
  · split at h
    · cases h; exact ⟨.nop, rfl, rfl⟩
    · cases h; exact ⟨.rst, rfl, rfl⟩
    · cases h; exact ⟨.proc _ _ _ _ _ _ _, rfl, rfl⟩
    · cases h
  · cases h

/-! ### Items and `.rep` blocks (R49) -/

theorem assembleItem_cmd (c : AsmCmd) : assembleItem (.cmd c) = (assembleCmd c).map (fun w => [w]) := by
  cases hwf : c.wf with
  | true => simp [assembleItem, AsmItem.wf, hwf]
  | false => simp [assembleItem, AsmItem.wf, hwf, assembleCmd_of_not_wf]

theorem wf_of_allSome_assembleCmd {body : List AsmCmd} {ws : List CmdWord}
    (h : allSome (body.map assembleCmd) = some ws) : body.all AsmCmd.wf = true := by
  induction body generalizing ws with
  | nil => rfl
  | cons c body ih =>
    rw [List.map_cons, allSome_cons, Option.bind_eq_some_iff] at h
    obtain ⟨w, hw, hrest⟩ := h
    obtain ⟨vs, hvs, -⟩ := Option.map_eq_some_iff.1 hrest
    have hc : c.wf = true := by
      by_contra hnot
      rw [assembleCmd_of_not_wf (Bool.not_eq_true _ ▸ hnot)] at hw
      cases hw
    rw [List.all_cons, hc, ih hvs]
    rfl

/-- The words of a block's lines, repeated: an ill-formed line has no word, so the check of the lines is in their
assembly. -/
theorem assembleItem_rep {n : Nat} (hn : 0 < n) (body : List AsmCmd) :
    assembleItem (.rep n body) =
      (allSome (body.map assembleCmd)).map (fun ws => (List.replicate n ws).flatten) := by
  cases hwords : allSome (body.map assembleCmd) with
  | some ws => simp [assembleItem, AsmItem.wf, hn, wf_of_allSome_assembleCmd hwords, hwords]
  | none => simp [assembleItem, hwords]

theorem assembleItem_rep_zero (body : List AsmCmd) : assembleItem (.rep 0 body) = none := by
  simp [assembleItem, AsmItem.wf]

theorem assembleItems_nil : assembleItems [] = some [] := rfl

theorem assembleItems_cons (i : AsmItem) (is : List AsmItem) :
    assembleItems (i :: is) = (assembleItem i).bind fun ws => (assembleItems is).map (ws ++ ·) := by
  rw [assembleItems, List.map_cons, allSome_cons, assembleItems]
  cases assembleItem i with
  | none => rfl
  | some ws => cases allSome (is.map assembleItem) <;> rfl

theorem assembleItems_append (is js : List AsmItem) :
    assembleItems (is ++ js) = (assembleItems is).bind fun ws => (assembleItems js).map (ws ++ ·) := by
  induction is with
  | nil =>
    rw [List.nil_append, assembleItems_nil]
    cases assembleItems js <;> rfl
  | cons i is ih =>
    rw [List.cons_append, assembleItems_cons, assembleItems_cons, ih]
    cases assembleItem i with
    | none => rfl
    | some vs =>
      cases assembleItems is with
      | none => rfl
      | some ws => cases assembleItems js <;> simp

/-- Command lines assemble one by one. -/
theorem assembleItems_map_cmd (body : List AsmCmd) :
    assembleItems (body.map AsmItem.cmd) = allSome (body.map assembleCmd) := by
  induction body with
  | nil => rfl
  | cons c body ih =>
    rw [List.map_cons, assembleItems_cons, assembleItem_cmd, ih, List.map_cons, allSome_cons]
    cases assembleCmd c <;> rfl

/-- Copies of a list of items assemble to copies of its words, or not at all. -/
theorem assembleItems_replicate (is : List AsmItem) (n : Nat) :
    assembleItems (List.replicate (n + 1) is).flatten =
      (assembleItems is).map (fun ws => (List.replicate (n + 1) ws).flatten) := by
  induction n with
  | zero => simp
  | succ n ih =>
    rw [List.replicate_succ, List.flatten_cons, assembleItems_append, ih]
    cases assembleItems is <;> rfl

/-- Settles O16: the block's copies assemble to the block's words, and what follows is appended to both. -/
theorem repeatExpandsToCopies : Obligations.RepeatExpandsToCopies := by
  refine ⟨fun n body rest hn => ?copies, assembleItem_rep_zero⟩
  case copies =>
    obtain ⟨m, rfl⟩ := Nat.exists_eq_add_of_lt hn
    rw [Nat.zero_add] at hn ⊢
    rw [assembleItems_append, assembleItems_replicate, assembleItems_map_cmd, assembleItems_cons, assembleItem_rep hn]

/-! ### What an assembled text holds (R45) -/

/-- The words of an item are words of command lines. -/
theorem exists_cmd_of_mem_assembleItem {i : AsmItem} {ws : List CmdWord} {w : CmdWord}
    (h : assembleItem i = some ws) (hw : w ∈ ws) : ∃ c, assembleCmd c = some w := by
  cases i with
  | cmd c =>
    rw [assembleItem_cmd] at h
    obtain ⟨v, hv, rfl⟩ := Option.map_eq_some_iff.1 h
    rw [List.mem_singleton.1 hw]
    exact ⟨c, hv⟩
  | rep n body =>
    rcases Nat.eq_zero_or_pos n with rfl | hn
    · rw [assembleItem_rep_zero] at h
      cases h
    · rw [assembleItem_rep hn] at h
      obtain ⟨vs, hvs, rfl⟩ := Option.map_eq_some_iff.1 h
      obtain ⟨copy, hcopy, hmem⟩ := List.mem_flatten.1 hw
      rw [List.eq_of_mem_replicate hcopy] at hmem
      obtain ⟨c, -, hc⟩ := List.mem_map.1 (some_mem_of_allSome hvs hmem)
      exact ⟨c, hc⟩

theorem exists_cmd_of_mem_assembleItems {is : List AsmItem} {ws : List CmdWord} {w : CmdWord}
    (h : assembleItems is = some ws) (hw : w ∈ ws) : ∃ c, assembleCmd c = some w := by
  obtain ⟨wss, hwss, rfl⟩ := Option.map_eq_some_iff.1 h
  obtain ⟨vs, hvs, hmem⟩ := List.mem_flatten.1 hw
  obtain ⟨i, -, hi⟩ := List.mem_map.1 (some_mem_of_allSome hwss hvs)
  exact exists_cmd_of_mem_assembleItem hi hmem

/-- A text that assembles was parsed into items. -/
theorem exists_items_of_assemble {text : List Char} {ws : List CmdWord} (h : assemble text = some ws) :
    ∃ is, assembleItems is = some ws := by
  unfold assemble at h
  split at h
  · cases h
  · split at h
    · cases h
    · next is _ => exact ⟨is, h⟩

/-- Settles O17: each word comes from a command line, and so from a well-formed command, which decoding gives back. -/
theorem assemblerProducesOnlyCommands : Obligations.AssemblerProducesOnlyCommands := by
  intro text ws h w hw
  obtain ⟨is, his⟩ := exists_items_of_assemble h
  obtain ⟨c, hc⟩ := exists_cmd_of_mem_assembleItems his hw
  obtain ⟨i, hwf, rfl⟩ := exists_instr_of_assembleCmd hc
  rw [decodeInvertsEncode i]
  exact ⟨hwf, rfl⟩

end Sys2Proof.Proofs
end

section
/-! Properties that every channel keeps, packaged once for steps and for runs, and the invariants of 10_state.md
section 5 (R16). -/

namespace Sys2Proof.Proofs

open Sys2Proof Sys2Proof.Machine

/-! ### What every transaction keeps -/

theorem everyChannel_iff (P : ChanId → Channel → Prop) (s : State) :
    everyChannel P s ↔ ∀ c, P c (s.chan c) := by
  refine ⟨fun ⟨hred, hgreen, hblue⟩ c => ?_, fun h => ⟨h .red, h .green, h .blue⟩⟩
  cases c with
  | red => exact hred
  | green => exact hgreen
  | blue => exact hblue

/-- `xt` of channel `c` for a frame on this hardware: the mixed compressed values (R91, R94). -/
def frameInput (f : Frame) (c : ChanId) : F32 := mix cfgLsa (compressFrame cfgLsa f) c

/-- A property of one channel that holds at reset and that every frame keeps. -/
structure KeptByFrames (P : ChanId → Channel → Prop) : Prop where
  reset : ∀ c, P c Channel.reset
  frame : ∀ (f : Frame) (c : ChanId) (ch : Channel), P c ch → P c (channelStep cfgLsa c ch (frameInput f c))

section
variable {P : ChanId → Channel → Prop} (hP : KeptByFrames P)
include hP

theorem KeptByFrames.runEvent {e : PortEvent} {s t : State} (hs : everyChannel P s) (h : runEvent e s = .next t) :
    everyChannel P t := by
  rw [everyChannel_iff] at hs ⊢
  intro c
  rcases runEvent_cases h with rfl | ⟨f, rfl⟩ | rfl
  · exact hs c
  · rw [processFrame_chan]
    exact hP.frame f c _ (hs c)
  · rw [State.resetRegs_chan]
    exact hP.reset c

theorem KeptByFrames.step {s t : State} (hs : everyChannel P s) (h : step s = .next t) : everyChannel P t := by
  rcases step_cases h with ⟨-, rfl⟩ | ⟨e, es, -, hrun⟩
  · exact hs
  · exact hP.runEvent (s := s.popPort) hs hrun

theorem KeptByFrames.runEvents {es : List PortEvent} {s t : State} (hs : everyChannel P s)
    (h : runEvents es s = .next t) : everyChannel P t := by
  induction es generalizing s with
  | nil => cases h; exact hs
  | cons e es ih =>
    cases hrun : Machine.runEvent e s with
    | next u =>
      rw [runEvents_cons_next es hrun] at h
      exact ih (hP.runEvent hs hrun) h
    | fault r => cases r
    | refused r =>
      rw [runEvents_cons_refused es hrun] at h
      cases h

theorem KeptByFrames.runEvents_reset {es : List PortEvent} {t : State}
    (h : Machine.runEvents es State.reset = .next t) : everyChannel P t :=
  hP.runEvents ⟨hP.reset .red, hP.reset .green, hP.reset .blue⟩ h

end

/-! ### The order of R67 -/

theorem not_nan_of_flt {a b : F32} (h : flt a b = true) : isNaN a = false ∧ isNaN b = false := by
  simp only [flt, Bool.and_eq_true, Bool.not_eq_true'] at h
  exact h.1

theorem not_nan_of_fle {a b : F32} (h : fle a b = true) : isNaN a = false ∧ isNaN b = false := by
  simp only [fle, Bool.and_eq_true, Bool.not_eq_true'] at h
  exact h.1

theorem fle_iff_orderKey {a b : F32} (ha : isNaN a = false) (hb : isNaN b = false) :
    fle a b = true ↔ orderKey a ≤ orderKey b := by
  rw [fle_iff_not_flt ha hb, Bool.eq_false_iff, ne_eq, flt_iff_orderKey hb ha, not_lt]

theorem fle_refl {a : F32} (h : isNaN a = false) : fle a a = true := (fle_iff_orderKey h h).2 le_rfl

theorem fle_trans {a b c : F32} (hab : fle a b = true) (hbc : fle b c = true) : fle a c = true := by
  obtain ⟨ha, hb⟩ := not_nan_of_fle hab
  obtain ⟨-, hc⟩ := not_nan_of_fle hbc
  rw [fle_iff_orderKey ha hb] at hab
  rw [fle_iff_orderKey hb hc] at hbc
  rw [fle_iff_orderKey ha hc]
  exact hab.trans hbc

theorem fle_of_flt {a b : F32} (h : flt a b = true) : fle a b = true := by
  obtain ⟨ha, hb⟩ := not_nan_of_flt h
  rw [flt_iff_orderKey ha hb] at h
  rw [fle_iff_orderKey ha hb]
  exact h.le

/-- The order is total on words that are no NaN. -/
theorem fle_of_not_flt {a b : F32} (ha : isNaN a = false) (hb : isNaN b = false) (h : flt a b = false) :
    fle b a = true := (fle_iff_not_flt hb ha).2 h

/-! ### Signs -/

theorem units_of_fsign_false {w : F32} (h : fsign w = false) : units w = magUnits w := by
  rw [units, h]
  rfl

theorem orderKey_nonneg {w : F32} (h : fsign w = false) : 0 ≤ orderKey w := by
  cases hinf : isInf w with
  | true => rw [orderKey_posInf hinf h]; norm_num
  | false => simp [orderKey, hinf, units_of_fsign_false h]

theorem orderKey_nonpos {w : F32} (h : fsign w = true) : orderKey w ≤ 0 := by
  cases hinf : isInf w with
  | true => rw [orderKey_negInf hinf h]; norm_num
  | false => simp [orderKey, hinf, units, h]

/-- What lies above a word of sign 0 has sign 0. -/
theorem fsign_false_of_flt {a b : F32} (ha : fsign a = false) (h : flt a b = true) : fsign b = false := by
  obtain ⟨hnan, hnan'⟩ := not_nan_of_flt h
  have hpos := (orderKey_nonneg ha).trans_lt ((flt_iff_orderKey hnan hnan').1 h)
  cases hb : fsign b with
  | false => rfl
  | true => exact absurd (orderKey_nonpos hb) (not_le.2 hpos)

/-- A rounding keeps the sign it is given, if an exact zero has it too (R62). -/
theorem fsign_rnd32 (s : Bool) (num den : Nat) : fsign (rnd32 s num den s) = s := by
  rw [rnd32]
  split
  · exact fsign_pack _ _ _
  · simp only []
    split
    · exact fsign_pack _ _ _
    · exact fsign_finiteWord _ _

/-- The sign of a product is the exclusive or of the signs, whatever the operands, if it is no NaN (R65). -/
theorem fsign_fmul {a b : F32} (h : isNaN (fmul a b) = false) : fsign (fmul a b) = (fsign a ^^ fsign b) := by
  simp only [fmul] at h ⊢
  split_ifs at h ⊢
  · simp at h
  · simp at h
  · exact fsign_pack _ _ _
  · exact fsign_pack _ _ _
  · exact fsign_rnd32 _ _ _

/-- A quotient has the same rule (R66). -/
theorem fsign_fdiv {a b : F32} (h : isNaN (fdiv a b) = false) : fsign (fdiv a b) = (fsign a ^^ fsign b) := by
  simp only [fdiv] at h ⊢
  split_ifs at h ⊢
  · simp at h
  · simp at h
  · simp at h
  · exact fsign_pack _ _ _
  · exact fsign_pack _ _ _
  · exact fsign_pack _ _ _
  · exact fsign_pack _ _ _
  · exact fsign_rnd32 _ _ _

/-- The larger of two words, of which the second is not negative, is not negative. -/
theorem fsign_fmax {a b : F32} (hb : isNaN b = false → fsign b = false) (hfin : isFinite (fmax a b) = true) :
    fsign (fmax a b) = false := by
  rcases fmax_cases a b with ⟨hlt, hmax⟩ | ⟨-, hmax⟩
  · rw [hmax]
    exact fsign_false_of_flt (hb (not_nan_of_flt hlt).1) hlt
  · rw [hmax] at hfin ⊢
    exact hb (isNaN_of_isFinite hfin)

/-- A finite maximum is not below its first operand, a NaN second operand making it a NaN. -/
theorem fle_fmax_of_isFinite {a b : F32} (ha : isFinite a = true) (hfin : isFinite (fmax a b) = true) :
    fle a (fmax a b) = true := by
  rcases fmax_cases a b with ⟨-, hmax⟩ | ⟨hnot, hmax⟩
  · rw [hmax, fle_refl (isNaN_of_isFinite ha)]
  · rw [hmax] at hfin ⊢
    exact fle_of_not_flt (isNaN_of_isFinite hfin) (isNaN_of_isFinite ha) hnot

/-! ### The invariants of R16 -/

theorem quant_pos {s : F32} (h : isFinite s = true) : 1 ≤ (quant s).toNat := by
  have hclamp := quant_eq_clamp_floor h
  omega

theorem channelInv_reset : ChannelInv Channel.reset :=
  ⟨by decide, by decide, by decide, by decide, by decide, by decide, by decide, by decide⟩

/-- The envelope's sign and `S1 <= ENV` come from the maximum, the output from the quantizer, and finiteness from the
commit condition. -/
theorem channelInv_of_commits {cfg : Cfg} {c : ChanId} {ch : Channel} {xt : F32} (hdecay : fsign cfg.decay = false)
    (henv : fsign ch.env = false) (h : commits (temps cfg c ch xt) = true) :
    ChannelInv (channelStep cfg c ch xt) := by
  obtain ⟨-, havg, hs11, henv1, hs21⟩ := (commits_iff _).1 h
  have hdm : isNaN (fmul ch.env cfg.decay) = false → fsign (fmul ch.env cfg.decay) = false := fun hnan => by
    rw [fsign_fmul hnan, henv, hdecay, Bool.xor_false]
  rw [channelStep_of_commits h]
  exact
    { avg_finite := havg
      s1_finite := hs11
      env_finite := henv1
      s2_finite := hs21
      env_sign := fsign_fmax hdm henv1
      s1_le_env := fle_fmax_of_isFinite hs11 henv1
      out_pos := quant_pos hs21
      out_quant := rfl }

/-- Settles O47: a channel that does not commit keeps its registers. -/
theorem channelStepKeepsInvariantsForAnyConstants : Obligations.ChannelStepKeepsInvariantsForAnyConstants := by
  intro cfg c ch xt hdecay hinv
  by_cases h : commits (temps cfg c ch xt) = true
  · exact channelInv_of_commits hdecay hinv.env_sign h
  · rwa [channelStep_of_not_commits h]

theorem channelInv_kept : KeptByFrames fun _ ch => ChannelInv ch where
  reset _ := channelInv_reset
  frame _ c ch := channelStepKeepsInvariantsForAnyConstants cfgLsa c ch _ (by decide)

/-- Settles O48: a step holds, resets, or runs a frame on each channel. -/
theorem everyStepKeepsInvariants : Obligations.EveryStepKeepsInvariants :=
  fun _ _ hs h => channelInv_kept.step hs h

theorem channelBounded_reset (c : ChanId) : ChannelBounded c Channel.reset := by
  cases c <;> exact
    ⟨⟨by decide, by decide +kernel⟩, by decide +kernel, by decide +kernel, ⟨by decide, by decide +kernel⟩,
      ⟨by decide, by decide +kernel⟩⟩

/-- Settles O46: the reset channel is the same on all three, and its ranges are evaluated on each. -/
theorem invariantsHoldAtReset : Obligations.InvariantsHoldAtReset :=
  ⟨⟨channelInv_reset, channelInv_reset, channelInv_reset⟩,
    ⟨channelBounded_reset .red, channelBounded_reset .green, channelBounded_reset .blue⟩⟩

/-! ### The constant table (R17) -/

/-- Settles O27: the entries are the table as written, and each constraint on them is one comparison. -/
theorem constantTableIsTheSpecs : Obligations.ConstantTableIsTheSpecs := ⟨rfl, by decide +kernel⟩

end Sys2Proof.Proofs
end

section
/-! The rounding of R62 as a function on the rationals: monotone, exact on the values of words, and near its argument.
The arithmetic of 40_numerics.md is read through it: an operation on finite words answers the rounded exact result. -/

namespace Sys2Proof.Proofs

open Sys2Proof Sys2Proof.Machine

/-! ### The nearest integer -/

theorem nearestEven_cases (y : ℚ) :
    (nearestEven y = ⌊y⌋ ∧ y - ⌊y⌋ ≤ 1 / 2) ∨ (nearestEven y = ⌊y⌋ + 1 ∧ 1 / 2 ≤ y - ⌊y⌋) := by
  rw [nearestEven]
  split
  · next h => exact .inr ⟨rfl, h.elim le_of_lt fun h => h.1.ge⟩
  · next h => exact .inl ⟨rfl, not_lt.1 fun hlt => h (.inl hlt)⟩

theorem nearestEven_intCast (n : ℤ) : nearestEven n = n := by simp [nearestEven]

theorem nearestEven_error (y : ℚ) : |(nearestEven y : ℚ) - y| ≤ 1 / 2 := by
  have hlo := Int.floor_le y
  have hhi := Int.lt_floor_add_one y
  rw [abs_le]
  rcases nearestEven_cases y with ⟨hn, hfract⟩ | ⟨hn, hfract⟩
  · rw [hn]; constructor <;> linarith
  · rw [hn]; push_cast; constructor <;> linarith

theorem nearestEven_mono {y y' : ℚ} (h : y ≤ y') : nearestEven y ≤ nearestEven y' := by
  rcases (Int.floor_mono h).lt_or_eq with hlt | heq
  · have hle : nearestEven y ≤ ⌊y⌋ + 1 := by rcases nearestEven_cases y with ⟨hn, -⟩ | ⟨hn, -⟩ <;> omega
    have hge : ⌊y'⌋ ≤ nearestEven y' := by rcases nearestEven_cases y' with ⟨hn, -⟩ | ⟨hn, -⟩ <;> omega
    omega
  · simp only [nearestEven, heq]
    split_ifs with hup hup'
    · exact le_rfl
    · refine absurd ?_ hup'
      rcases hup with hgt | ⟨htie, hodd⟩
      · exact .inl (by linarith)
      · rcases h.lt_or_eq with hlt | rfl
        · exact .inl (by linarith)
        · exact .inr ⟨htie, hodd⟩
    · omega
    · exact le_rfl

/-- Below one half the nearest integer is 0; from there on rounding at most doubles. -/
theorem nearestEven_le_two_mul {y : ℚ} (h : 0 ≤ y) : (nearestEven y : ℚ) ≤ 2 * y := by
  have hlo := Int.floor_le y
  rcases nearestEven_cases y with ⟨hn, -⟩ | ⟨hn, hfract⟩
  · rw [hn]; linarith
  · have hfloor : (0 : ℚ) ≤ ⌊y⌋ := by exact_mod_cast Int.floor_nonneg.2 h
    rw [hn]; push_cast; linarith

/-! ### The rounded magnitude -/

theorem spacing_pos (a : ℚ) : 0 < spacing a := by
  rw [spacing]
  positivity

theorem roundedMagnitude_zero : roundedMagnitude 0 = 0 := by
  have h := nearestEven_intCast 0
  rw [roundedMagnitude, zero_div]
  rw [Int.cast_zero] at h
  rw [h, Int.cast_zero, zero_mul]

theorem roundedMagnitude_le_mul_spacing {a : ℚ} {n : ℤ} (h : a ≤ n * spacing a) :
    roundedMagnitude a ≤ n * spacing a := by
  have hle := nearestEven_mono ((div_le_iff₀ (spacing_pos a)).2 h)
  rw [nearestEven_intCast] at hle
  exact mul_le_mul_of_nonneg_right (by exact_mod_cast hle) (spacing_pos a).le

theorem mul_spacing_le_roundedMagnitude {a : ℚ} {n : ℤ} (h : n * spacing a ≤ a) :
    n * spacing a ≤ roundedMagnitude a := by
  have hle := nearestEven_mono ((le_div_iff₀ (spacing_pos a)).2 h)
  rw [nearestEven_intCast] at hle
  exact mul_le_mul_of_nonneg_right (by exact_mod_cast hle) (spacing_pos a).le

theorem roundedMagnitude_nonneg {a : ℚ} (h : 0 ≤ a) : 0 ≤ roundedMagnitude a := by
  have hle := mul_spacing_le_roundedMagnitude (a := a) (n := 0) (by simpa using h)
  simpa using hle

theorem roundedMagnitude_le_two_mul {a : ℚ} (h : 0 ≤ a) : roundedMagnitude a ≤ 2 * a := by
  have hpos := spacing_pos a
  calc roundedMagnitude a ≤ 2 * (a / spacing a) * spacing a :=
        mul_le_mul_of_nonneg_right (nearestEven_le_two_mul (by positivity)) hpos.le
    _ = 2 * a := by rw [mul_assoc, div_mul_cancel₀ _ hpos.ne']

/-- The error is at most half the spacing. -/
theorem roundedMagnitude_error (a : ℚ) : |roundedMagnitude a - a| ≤ spacing a / 2 := by
  have hpos := spacing_pos a
  have hfactor : roundedMagnitude a - a = (nearestEven (a / spacing a) - a / spacing a) * spacing a := by
    rw [sub_mul, div_mul_cancel₀ _ hpos.ne', roundedMagnitude]
  calc |roundedMagnitude a - a| = |nearestEven (a / spacing a) - a / spacing a| * spacing a := by
        rw [hfactor, abs_mul, abs_of_pos hpos]
    _ ≤ 1 / 2 * spacing a := mul_le_mul_of_nonneg_right (nearestEven_error _) hpos.le
    _ = spacing a / 2 := by ring

/-- Below `2^z` the spacing is at most `2^(z-24)`. -/
theorem spacing_le {a : ℚ} {z : ℤ} (ha : 0 < a) (h : a < 2 ^ z) (hz : -125 ≤ z) : spacing a ≤ 2 ^ (z - 24) := by
  have hlog : Int.log 2 a < z := (Int.lt_zpow_iff_log_lt one_lt_two ha).1 (by exact_mod_cast h)
  rw [spacing]
  exact zpow_le_zpow_right₀ one_le_two (by omega)

/-- Rounding is monotone: with the same spacing since the nearest integer is; else the power of two at which the
spacing of the larger argument starts lies between. -/
theorem roundedMagnitude_mono {a b : ℚ} (ha : 0 ≤ a) (hab : a ≤ b) : roundedMagnitude a ≤ roundedMagnitude b := by
  rcases ha.eq_or_lt with rfl | ha
  · rw [roundedMagnitude_zero]
    exact roundedMagnitude_nonneg hab
  have hb : 0 < b := ha.trans_le hab
  have hlog : Int.log 2 a ≤ Int.log 2 b := Int.log_mono_right ha hab
  rcases eq_or_ne (spacing a) (spacing b) with heq | hne
  · rw [roundedMagnitude, roundedMagnitude, heq]
    have hquot : a / spacing b ≤ b / spacing b := div_le_div_of_nonneg_right hab (spacing_pos b).le
    exact mul_le_mul_of_nonneg_right (by exact_mod_cast nearestEven_mono hquot) (spacing_pos b).le
  · have hbig : max (Int.log 2 a) (-126) < Int.log 2 b := by
      by_contra hnot
      exact hne (by rw [spacing, spacing, show max (Int.log 2 a) (-126) = max (Int.log 2 b) (-126) by omega])
    obtain ⟨k, hk⟩ := Int.eq_ofNat_of_zero_le (sub_nonneg.2 hbig.le)
    have hupper : (2 : ℚ) ^ Int.log 2 b = (2 ^ 23 : ℤ) * spacing b := by
      rw [spacing, max_eq_left (by omega), Int.cast_pow, Int.cast_ofNat, ← zpow_natCast, ← zpow_add₀ two_ne_zero]
      congr 1
      omega
    have hlower : (2 : ℚ) ^ Int.log 2 b = (2 ^ (k + 23) : ℤ) * spacing a := by
      rw [spacing, Int.cast_pow, Int.cast_ofNat, ← zpow_natCast, ← zpow_add₀ two_ne_zero]
      congr 1
      push_cast
      omega
    have hbelow : a ≤ 2 ^ Int.log 2 b := by
      have hlt : a < 2 ^ (Int.log 2 a + 1) := by exact_mod_cast Int.lt_zpow_succ_log_self one_lt_two a
      exact hlt.le.trans (zpow_le_zpow_right₀ one_le_two (by omega))
    have habove : (2 : ℚ) ^ Int.log 2 b ≤ b := by exact_mod_cast Int.zpow_log_le_self one_lt_two hb
    calc roundedMagnitude a ≤ (2 ^ (k + 23) : ℤ) * spacing a := roundedMagnitude_le_mul_spacing (hlower ▸ hbelow)
      _ = (2 ^ 23 : ℤ) * spacing b := by rw [← hlower, hupper]
      _ ≤ roundedMagnitude b := mul_spacing_le_roundedMagnitude (hupper ▸ habove)

/-- The magnitude of a finite word is its own rounding. -/
theorem roundedMagnitude_magUnits (w : F32) : roundedMagnitude (magUnits w / 2 ^ 149) = magUnits w / 2 ^ 149 := by
  rcases Nat.eq_zero_or_pos (magUnits w) with hzero | hpos
  · rw [hzero, Nat.cast_zero, zero_div, roundedMagnitude_zero]
  · have h := roundUnits_cast hpos one_pos
    have hround := roundUnits_of_representable (representable_magUnits w) one_pos
    rw [mul_one] at hround
    rw [hround, Nat.cast_one, div_one] at h
    exact h.symm

/-! ### The rounded value -/

/-- R62's rounding with the sign carried over, before overflow. -/
def roundVal (q : ℚ) : ℚ := if q < 0 then -roundedMagnitude (-q) else roundedMagnitude q

theorem roundVal_of_nonneg {q : ℚ} (h : 0 ≤ q) : roundVal q = roundedMagnitude q := if_neg h.not_gt

theorem roundVal_neg (q : ℚ) : roundVal (-q) = -roundVal q := by
  rcases lt_trichotomy q 0 with hneg | rfl | hpos
  · rw [roundVal_of_nonneg (by linarith), roundVal, if_pos hneg, neg_neg]
  · rw [neg_zero, roundVal_of_nonneg le_rfl, roundedMagnitude_zero, neg_zero]
  · rw [roundVal, if_pos (by linarith), neg_neg, roundVal_of_nonneg hpos.le]

theorem roundVal_nonneg {q : ℚ} (h : 0 ≤ q) : 0 ≤ roundVal q := by
  rw [roundVal_of_nonneg h]
  exact roundedMagnitude_nonneg h

theorem abs_roundVal (q : ℚ) : |roundVal q| = roundedMagnitude |q| := by
  rcases le_or_gt 0 q with h | h
  · rw [roundVal_of_nonneg h, abs_of_nonneg h, abs_of_nonneg (roundedMagnitude_nonneg h)]
  · rw [roundVal, if_pos h, abs_neg, abs_of_neg h, abs_of_nonneg (roundedMagnitude_nonneg (by linarith))]

theorem roundVal_mono {q q' : ℚ} (h : q ≤ q') : roundVal q ≤ roundVal q' := by
  rcases le_or_gt 0 q with hq | hq
  · rw [roundVal_of_nonneg hq, roundVal_of_nonneg (hq.trans h)]
    exact roundedMagnitude_mono hq h
  · rw [roundVal, if_pos hq]
    rcases le_or_gt 0 q' with hq' | hq'
    · exact (neg_nonpos.2 (roundedMagnitude_nonneg (by linarith))).trans (roundVal_nonneg hq')
    · rw [roundVal, if_pos hq']
      exact neg_le_neg (roundedMagnitude_mono (by linarith) (by linarith))

/-- Rounding scales its argument by a factor of at most 2. -/
theorem exists_factor_roundVal (q : ℚ) : ∃ k : ℚ, 0 ≤ k ∧ k ≤ 2 ∧ roundVal q = k * q := by
  wlog hq : 0 ≤ q generalizing q
  · obtain ⟨k, hk0, hk2, hk⟩ := this (-q) (by linarith)
    exact ⟨k, hk0, hk2, by rw [roundVal_neg] at hk; linarith⟩
  rcases hq.eq_or_lt with rfl | hpos
  · exact ⟨0, le_rfl, two_pos.le, by rw [roundVal_of_nonneg le_rfl, roundedMagnitude_zero, mul_zero]⟩
  · have hnn := roundVal_nonneg hq
    refine ⟨roundVal q / q, by positivity, ?_, by rw [div_mul_cancel₀ _ hpos.ne']⟩
    rw [div_le_iff₀ hpos, roundVal_of_nonneg hq]
    exact roundedMagnitude_le_two_mul hq

/-- Below `2^z` in magnitude the error is at most `2^(z-25)`. -/
theorem roundVal_error {q : ℚ} {z : ℤ} (h : |q| < 2 ^ z) (hz : -125 ≤ z) : |roundVal q - q| ≤ 2 ^ (z - 24) / 2 := by
  wlog hq : 0 ≤ q generalizing q
  · have hneg := this (q := -q) (by rwa [abs_neg]) (by linarith)
    rwa [roundVal_neg, ← neg_add', abs_neg, ← sub_eq_add_neg] at hneg
  rcases hq.eq_or_lt with rfl | hpos
  · rw [roundVal_of_nonneg le_rfl, roundedMagnitude_zero, sub_zero, abs_zero]
    positivity
  · rw [abs_of_pos hpos] at h
    rw [roundVal_of_nonneg hq]
    exact (roundedMagnitude_error q).trans (div_le_div_of_nonneg_right (spacing_le hpos h hz) two_pos.le)

/-! ### The values of words -/

/-- A rational that some finite word has as its value (R60). -/
def IsValue (q : ℚ) : Prop := ∃ w, isFinite w = true ∧ val w = q

theorem isValue_val {w : F32} (h : isFinite w = true) : IsValue (val w) := ⟨w, h, rfl⟩

theorem roundVal_of_isValue {q : ℚ} (h : IsValue q) : roundVal q = q := by
  obtain ⟨w, -, rfl⟩ := h
  rw [val_eq_sgn, mul_div_assoc, sgn]
  split
  · rw [neg_one_mul, roundVal_neg, roundVal_of_nonneg (by positivity), roundedMagnitude_magUnits]
  · rw [one_mul, roundVal_of_nonneg (by positivity), roundedMagnitude_magUnits]

theorem abs_le_maxF_of_isValue {q : ℚ} (h : IsValue q) : |q| ≤ maxF := by
  obtain ⟨w, hfin, rfl⟩ := h
  rw [abs_val, maxF_eq]
  exact div_le_div_of_nonneg_right (by exact_mod_cast magUnits_le_maxUnits hfin) (by positivity)

theorem IsValue.neg {q : ℚ} (h : IsValue q) : IsValue (-q) := by
  obtain ⟨w, hfin, rfl⟩ := h
  refine ⟨fneg w, by rw [isFinite_fneg, hfin], ?_⟩
  rw [val, val, units_fneg, Int.cast_neg, neg_div]

/-- A 24-bit integer over a power of two is a value. -/
theorem isValue_div_pow {n : ℤ} {j : ℕ} (hn : |n| < 2 ^ 24) (hj : j ≤ 149) : IsValue ((n : ℚ) / 2 ^ j) := by
  have hnat : n.natAbs < 2 ^ 24 := by
    rw [Int.abs_eq_natAbs] at hn
    exact_mod_cast hn
  have hrep : Representable (n.natAbs * 2 ^ (149 - j)) := ⟨n.natAbs, 149 - j, hnat, rfl⟩
  have hmax : n.natAbs * 2 ^ (149 - j) ≤ maxUnits :=
    Nat.mul_le_mul (by omega) (Nat.pow_le_pow_right (by norm_num) (by omega))
  obtain ⟨hfin, hmag⟩ := finiteWord_spec (decide (n < 0)) hrep hmax
  refine ⟨_, hfin, ?_⟩
  have hpow : (2 : ℚ) ^ 149 = 2 ^ (149 - j) * 2 ^ j := by rw [← pow_add, Nat.sub_add_cancel hj]
  have hsgn := sgn_mul_natAbs n
  rw [val_eq_sgn, fsign_finiteWord, hmag, Nat.cast_mul, ← mul_assoc, hsgn, Nat.cast_pow, Nat.cast_ofNat, hpow,
    mul_comm (n : ℚ), mul_div_mul_left _ _ (by positivity)]

/-- The form in which a given number is shown to be a value. -/
theorem isValue_of_eq {q : ℚ} (n : ℤ) (j : ℕ) (h : q = n / 2 ^ j) (hn : |n| < 2 ^ 24 := by norm_num)
    (hj : j ≤ 149 := by norm_num) : IsValue q := h ▸ isValue_div_pow hn hj

theorem isValue_intCast {n : ℤ} (hn : |n| < 2 ^ 24) : IsValue n := isValue_of_eq n 0 (by simp) hn

theorem isValue_zero : IsValue 0 := isValue_of_eq 0 0 (by norm_num)

theorem isValue_one : IsValue 1 := isValue_of_eq 1 0 (by norm_num)

/-- The least positive value is one unit (R60). -/
theorem isValue_unit : IsValue (1 / 2 ^ 149) := isValue_of_eq 1 149 (by norm_num)

/-! ### Words as rounded results -/

/-- `w` is finite exactly if `q` rounds to no more than `MAXF`, and then has the rounded value. -/
structure Rounds (q : ℚ) (w : F32) : Prop where
  finite_iff : isFinite w = true ↔ |roundVal q| ≤ maxF
  val_eq : isFinite w = true → val w = roundVal q

/-- A word that is finite with a value in an interval. -/
structure Between (lo hi : ℚ) (w : F32) : Prop where
  finite : isFinite w = true
  low : lo ≤ val w
  high : val w ≤ hi

theorem Between.mono {lo hi lo' hi' : ℚ} {w : F32} (h : Between lo hi w) (hlo : lo' ≤ lo) (hhi : hi ≤ hi') :
    Between lo' hi' w := ⟨h.finite, hlo.trans h.low, h.high.trans hhi⟩

/-- Rounding does not leave an interval whose ends are values. -/
theorem Rounds.between {q lo hi : ℚ} {w : F32} (h : Rounds q w) (hlo : IsValue lo) (hhi : IsValue hi) (hloq : lo ≤ q)
    (hqhi : q ≤ hi) : Between lo hi w := by
  have hlow := roundVal_mono hloq
  have hhigh := roundVal_mono hqhi
  rw [roundVal_of_isValue hlo] at hlow
  rw [roundVal_of_isValue hhi] at hhigh
  have hlo' := abs_le.1 (abs_le_maxF_of_isValue hlo)
  have hhi' := abs_le.1 (abs_le_maxF_of_isValue hhi)
  have hfin : isFinite w = true := h.finite_iff.2 (abs_le.2 ⟨hlo'.1.trans hlow, hhigh.trans hhi'.2⟩)
  rw [← h.val_eq hfin] at hlow hhigh
  exact ⟨hfin, hlow, hhigh⟩

/-- A value is not changed. -/
theorem Rounds.exact {q : ℚ} {w : F32} (h : Rounds q w) (hq : IsValue q) : isFinite w = true ∧ val w = q := by
  obtain ⟨hfin, hlow, hhigh⟩ := h.between hq hq le_rfl le_rfl
  exact ⟨hfin, le_antisymm hhigh hlow⟩

theorem Rounds.mono {q q' : ℚ} {w w' : F32} (h : Rounds q w) (h' : Rounds q' w') (hfin : isFinite w = true)
    (hfin' : isFinite w' = true) (hle : q ≤ q') : val w ≤ val w' := by
  rw [h.val_eq hfin, h'.val_eq hfin']
  exact roundVal_mono hle

/-- A rounded result is not below a value that the exact one is not below. -/
theorem Rounds.le_val {q lo : ℚ} {w : F32} (h : Rounds q w) (hfin : isFinite w = true) (hlo : IsValue lo)
    (hle : lo ≤ q) : lo ≤ val w := by
  rw [h.val_eq hfin, ← roundVal_of_isValue hlo]
  exact roundVal_mono hle

theorem Rounds.error {q : ℚ} {w : F32} {z : ℤ} (h : Rounds q w) (hfin : isFinite w = true) (hq : |q| < 2 ^ z)
    (hz : -125 ≤ z) : |val w - q| ≤ 2 ^ (z - 24) / 2 := by
  rw [h.val_eq hfin]
  exact roundVal_error hq hz

theorem rounds_of_isZero {w : F32} (h : isZero w = true) : Rounds 0 w := by
  have hval : val w = 0 := by rw [val, (units_eq_zero_iff w).2 h, Int.cast_zero, zero_div]
  have hround := roundVal_of_isValue isValue_zero
  refine ⟨iff_of_true (isFinite_of_isZero h) ?_, fun _ => by rw [hval, hround]⟩
  rw [hround]
  exact abs_le_maxF_of_isValue isValue_zero

theorem not_isFinite_infOf (s : Bool) : isFinite (infOf s) = false := by simp [isFinite, infOf, fexp_pack]

theorem isZero_zeroOf (s : Bool) : isZero (zeroOf s) = true := by
  simp [isZero, zeroOf, fexp_pack, ffrac_pack]

/-- A word of sign `s` is the value of its magnitude with that sign. -/
theorem val_eq_of_abs {w : F32} {q : ℚ} (hq : q ≠ 0) (hsign : fsign w = decide (q < 0))
    (habs : |val w| = |roundVal q|) : val w = roundVal q := by
  have hval : val w = sgn (decide (q < 0)) * |val w| := by rw [abs_val, val_eq_sgn, hsign, mul_div_assoc]
  rw [hval, habs]
  rcases hq.lt_or_gt with hneg | hpos
  · have hle : roundVal q ≤ 0 := by
      have := roundVal_nonneg (neg_nonneg.2 hneg.le)
      rw [roundVal_neg] at this
      linarith
    simp [sgn, hneg, abs_of_nonpos hle]
  · simp [sgn, not_lt.2 hpos.le, abs_of_nonneg (roundVal_nonneg hpos.le)]

/-- R62's relation, for a nonzero rational, in terms of the rounded value. -/
theorem rounds_of_roundsTo {q : ℚ} {zs : Bool} {w : F32} (hq : q ≠ 0) (h : roundsTo q zs w) : Rounds q w := by
  rw [roundsTo_iff zs w hq, ← abs_roundVal] at h
  split at h
  · next hover =>
    have hnot : isFinite w = false := by rw [h, not_isFinite_infOf]
    exact ⟨iff_of_false (by simp [hnot]) hover.not_ge, fun hfin => by simp [hnot] at hfin⟩
  · next hle =>
    obtain ⟨hfin, hsign, habs⟩ := h
    exact ⟨iff_of_true hfin (not_lt.1 hle), fun _ => val_eq_of_abs hq hsign habs⟩

theorem val_eq_zero_iff (w : F32) : val w = 0 ↔ isZero w = true := by
  rw [← units_eq_zero_iff, val, div_eq_zero_iff, Int.cast_eq_zero]
  exact or_iff_left (by positivity)

theorem val_posZero : val posZero = 0 := (val_eq_zero_iff _).2 (by decide)

theorem isZero_of_val_ne_zero {w : F32} (h : val w ≠ 0) : isZero w = false :=
  Bool.eq_false_iff.2 (mt (val_eq_zero_iff w).2 h)

/-- R63 on finite words. -/
theorem fadd_rounds_sum {a b : F32} (ha : isFinite a = true) (hb : isFinite b = true) :
    Rounds (val a + val b) (fadd a b) := by
  obtain ⟨-, -, -, -, -, hzeros, hcancel, hround⟩ := additionFollowsItsTable a b
  by_cases hsum : val a + val b = 0
  · rw [hsum]
    refine rounds_of_isZero ?_
    by_cases hz : isZero a = true ∧ isZero b = true
    · rw [hzeros hz.1 hz.2]
      split <;> decide
    · rw [hcancel ha hb hz hsum]
      decide
  · exact rounds_of_roundsTo hsum (hround ha hb hsum)

theorem val_fneg (b : F32) : val (fneg b) = -val b := by rw [val, val, units_fneg, Int.cast_neg, neg_div]

/-- R64 on finite words. -/
theorem fsub_rounds_difference {a b : F32} (ha : isFinite a = true) (hb : isFinite b = true) :
    Rounds (val a - val b) (fsub a b) := by
  rw [sub_eq_add_neg, ← val_fneg]
  exact fadd_rounds_sum ha (by rw [isFinite_fneg, hb])

/-- R65 on finite words. -/
theorem fmul_rounds_product {a b : F32} (ha : isFinite a = true) (hb : isFinite b = true) :
    Rounds (val a * val b) (fmul a b) := by
  obtain ⟨-, -, -, -, -, -, hround⟩ := multiplicationFollowsItsTable.1 a b
  by_cases hprod : val a * val b = 0
  · rw [hprod]
    refine rounds_of_isZero ?_
    rw [mul_eq_zero, val_eq_zero_iff, val_eq_zero_iff] at hprod
    rw [fmul_zero ha hb hprod, isZero_zeroOf]
  · obtain ⟨hna, hnb⟩ := mul_ne_zero_iff.1 hprod
    exact rounds_of_roundsTo hprod (hround ha hb (isZero_of_val_ne_zero hna) (isZero_of_val_ne_zero hnb))

/-- R66 on finite words, the divisor not zero. -/
theorem fdiv_rounds_quotient {a b : F32} (ha : isFinite a = true) (hb : isFinite b = true) (hnb : val b ≠ 0) :
    Rounds (val a / val b) (fdiv a b) := by
  obtain ⟨-, -, -, -, -, -, hzero, hround⟩ := divisionFollowsItsTable a b
  have hzb := isZero_of_val_ne_zero hnb
  cases hza : isZero a with
  | true =>
    rw [(val_eq_zero_iff a).2 hza, zero_div, hzero hza hb hzb]
    exact rounds_of_isZero (isZero_zeroOf _)
  | false =>
    have hna : val a ≠ 0 := fun h => by simp [(val_eq_zero_iff a).1 h] at hza
    exact rounds_of_roundsTo (div_ne_zero hna hnb) (hround ha hb hza hzb)

/-- A sum that is not negative, with a first operand of sign 0, has sign 0: a `-0` needs two of them (R63). -/
theorem fsign_fadd {a b : F32} (ha : isFinite a = true) (hb : isFinite b = true) (hsign : fsign a = false)
    (h : 0 ≤ val a + val b) : fsign (fadd a b) = false := by
  have hunits : 0 ≤ units a + units b := by
    rw [val_add] at h
    by_contra hneg
    exact (div_neg_of_neg_of_pos (Int.cast_lt_zero.2 (not_le.1 hneg)) (by positivity)).not_ge h
  by_cases hsum : units a + units b = 0
  · by_cases hz : isZero a = true ∧ isZero b = true
    · rw [fadd_zeros hz.1 hz.2, if_neg (by simp [hsign])]
      decide
    · rw [fadd_cancel ha hb hz hsum]
      decide
  · rw [fadd_rounds ha hb hsum, decide_eq_false (not_lt.2 hunits)]
    exact fsign_rnd32 false _ _

/-- A sum that is positive is at least one unit, and so is its rounding: addition does not underflow to zero. -/
theorem fadd_pos {a b : F32} (ha : isFinite a = true) (hb : isFinite b = true) (h : 0 < val a + val b)
    (hfin : isFinite (fadd a b) = true) : 0 < val (fadd a b) := by
  have hunit : (1 : ℚ) / 2 ^ 149 ≤ val a + val b := by
    rw [val_add, div_pos_iff_of_pos_right (by positivity)] at h
    rw [val_add]
    exact div_le_div_of_nonneg_right (by exact_mod_cast h) (by positivity)
  exact lt_of_lt_of_le (by positivity) ((fadd_rounds_sum ha hb).le_val hfin isValue_unit hunit)

/-! ### Ranges of words by value -/

theorem val_nonneg_of_fsign {w : F32} (h : fsign w = false) : 0 ≤ val w := by
  rw [val, units_of_fsign_false h]
  positivity

theorem fsign_of_val_pos {w : F32} (h : 0 < val w) : fsign w = false := by
  cases hsign : fsign w with
  | false => rfl
  | true =>
    have hle : val w ≤ 0 := by
      rw [val_eq_sgn, hsign, sgn, if_pos rfl, neg_one_mul]
      exact div_nonpos_of_nonpos_of_nonneg (by simp) (by positivity)
    exact absurd h hle.not_gt

/-- A word between two finite ones in the order of R67 is finite, with its value between theirs. -/
theorem between_iff_fle {lo hi w : F32} (hlo : isFinite lo = true) (hhi : isFinite hi = true) :
    fle lo w = true ∧ fle w hi = true ↔ Between (val lo) (val hi) w := by
  refine ⟨fun ⟨h1, h2⟩ => ?_, fun h => ⟨(fle_iff_val_le hlo h.finite).2 h.low, (fle_iff_val_le h.finite hhi).2 h.high⟩⟩
  obtain ⟨-, hnan⟩ := not_nan_of_fle h1
  rcases isFinite_or_isInf_of_not_isNaN hnan with hfin | hinf
  · exact ⟨hfin, (fle_iff_val_le hlo hfin).1 h1, (fle_iff_val_le hfin hhi).1 h2⟩
  · rw [fle_iff_not_flt (isNaN_of_isFinite hlo) hnan, Bool.eq_false_iff] at h1
    rw [fle_iff_not_flt hnan (isNaN_of_isFinite hhi), Bool.eq_false_iff] at h2
    exact absurd ((flt_inf_finite hinf hlo).2 (by simpa using mt (flt_finite_inf hinf hhi).2 h2)) h1

theorem inPosRange_iff {w hi : F32} (hhi : isFinite hi = true) :
    inPosRange w hi ↔ fsign w = false ∧ Between 0 (val hi) w := by
  rw [inPosRange, and_congr_right_iff, ← val_posZero, ← between_iff_fle (by decide) hhi]
  refine fun hsign => ⟨fun h => ⟨?_, h⟩, fun h => h.2⟩
  obtain ⟨hnan, -⟩ := not_nan_of_fle h
  rw [fle_iff_orderKey (by decide) hnan]
  exact orderKey_nonneg hsign

theorem isPositive_iff {w : F32} (h : isFinite w = true) : isPositive w = true ↔ 0 < val w := by
  rw [isPositive, flt_iff_val_lt (by decide) h, val_posZero]

end Sys2Proof.Proofs
end

section
/-! The smoothing step of 42_average_smooth.md (R100) and the envelope of 43_envelope_gain.md (R110, R111). -/

namespace Sys2Proof.Proofs

open Sys2Proof Sys2Proof.Machine

/-! ### Fixed points of the smoothing step -/

/-- Settles O34: the difference is +0, so is its product with a finite constant of sign 0, and adding +0 changes `-0`
only. -/
theorem smoothingHasItsFixedPoints : Obligations.SmoothingHasItsFixedPoints := by
  intro x a hx ha hsign
  have hincrement : fmul a (fsub x x) = posZero := by
    rw [fsub_self hx, fmul_zero ha (by decide) (.inr (by decide)), hsign]
    decide
  rw [ema, hincrement]
  split
  · next hneg => rw [hneg]; decide
  · next hneg => exact fadd_posZero (isNaN_of_isFinite hx) hneg

/-! ### No overshoot -/

theorem val_aAvg : val cfgLsa.aAvg = 1 / 256 := by
  rw [val_eq_iff_units]
  decide +kernel

theorem val_aS1 : val cfgLsa.aS1 = 1 / 4 := by
  rw [val_eq_iff_units]
  decide +kernel

theorem val_aS2 : val cfgLsa.aS2 = 1 / 16 := by
  rw [val_eq_iff_units]
  decide +kernel

/-- A smoothing constant: finite, with a value in `[0, 1/4]`. -/
abbrev SmoothingConstant (a : F32) : Prop := Between 0 (1 / 4) a

theorem smoothingConstant_aAvg : SmoothingConstant cfgLsa.aAvg :=
  ⟨by decide, by rw [val_aAvg]; norm_num, by rw [val_aAvg]; norm_num⟩

theorem smoothingConstant_aS1 : SmoothingConstant cfgLsa.aS1 :=
  ⟨by decide, by rw [val_aS1]; norm_num, by rw [val_aS1]⟩

theorem smoothingConstant_aS2 : SmoothingConstant cfgLsa.aS2 :=
  ⟨by decide, by rw [val_aS2]; norm_num, by rw [val_aS2]; norm_num⟩

section
variable {s x a : F32}

/-- Each of the two roundings at most doubles, so the increment goes at most `4 * a` of the way to the input. -/
theorem exists_factor_increment (hs : isFinite s = true) (hx : isFinite x = true)
    (hd : isFinite (fsub x s) = true) (ha : SmoothingConstant a) :
    isFinite (fmul a (fsub x s)) = true ∧
      ∃ r, 0 ≤ r ∧ r ≤ 4 * val a ∧ val (fmul a (fsub x s)) = r * (val x - val s) := by
  obtain ⟨hafin, ha0, ha4⟩ := ha
  have hdiff := (fsub_rounds_difference hx hs).val_eq hd
  have hprod := fmul_rounds_product hafin hd
  have hbound : |roundVal (val a * val (fsub x s))| ≤ maxF := by
    refine le_trans ?_ (abs_le_maxF_of_isValue (isValue_val hd))
    obtain ⟨k, hk0, hk2, hk⟩ := exists_factor_roundVal (val a * val (fsub x s))
    rw [hk, ← mul_assoc, abs_mul, abs_of_nonneg (mul_nonneg hk0 ha0)]
    exact mul_le_of_le_one_left (abs_nonneg _) (by nlinarith only [hk0, hk2, ha0, ha4])
  have hfin := hprod.finite_iff.2 hbound
  obtain ⟨k, hk0, hk2, hk⟩ := exists_factor_roundVal (val x - val s)
  obtain ⟨k', hk0', hk2', hk'⟩ := exists_factor_roundVal (val a * val (fsub x s))
  refine ⟨hfin, k' * (val a * k), by positivity, ?_, ?_⟩
  · have hkk : k' * k ≤ 2 * 2 := mul_le_mul hk2' hk2 hk0 two_pos.le
    nlinarith only [hkk, ha0]
  · rw [hprod.val_eq hfin, hk', hdiff, hk]
    ring

/-- The smoothing step rounds a point at most `4 * a` of the way from the filter's value to its input. -/
theorem ema_rounds (hs : isFinite s = true) (hx : isFinite x = true) (hd : isFinite (fsub x s) = true)
    (ha : SmoothingConstant a) :
    ∃ r, 0 ≤ r ∧ r ≤ 4 * val a ∧ r ≤ 1 ∧ val s + val (fmul a (fsub x s)) = (1 - r) * val s + r * val x ∧
      Rounds ((1 - r) * val s + r * val x) (ema s x a) := by
  obtain ⟨hfin, r, hr0, hr4, hr⟩ := exists_factor_increment hs hx hd ha
  have hsum : val s + val (fmul a (fsub x s)) = (1 - r) * val s + r * val x := by rw [hr]; ring
  refine ⟨r, hr0, hr4, ?_, hsum, ?_⟩
  · have := ha.high
    linarith
  · rw [← hsum]
    exact fadd_rounds_sum hs hfin

/-- A smoothing step stays in any interval, with values as ends, that holds the filter's value and its input. -/
theorem ema_between {lo hi : ℚ} (hlo : IsValue lo) (hhi : IsValue hi) (hs : Between lo hi s) (hx : Between lo hi x)
    (hd : isFinite (fsub x s) = true) (ha : SmoothingConstant a) : Between lo hi (ema s x a) := by
  obtain ⟨r, hr0, -, hr1, -, hrounds⟩ := ema_rounds hs.finite hx.finite hd ha
  have hr1' : 0 ≤ 1 - r := sub_nonneg.2 hr1
  refine hrounds.between hlo hhi ?_ ?_
  · calc lo = (1 - r) * lo + r * lo := by ring
      _ ≤ _ := add_le_add (mul_le_mul_of_nonneg_left hs.low hr1') (mul_le_mul_of_nonneg_left hx.low hr0)
  · calc _ ≤ (1 - r) * hi + r * hi :=
          add_le_add (mul_le_mul_of_nonneg_left hs.high hr1') (mul_le_mul_of_nonneg_left hx.high hr0)
      _ = hi := by ring

/-- A filter of sign 0 that stays non-negative keeps its sign, so that it never becomes `-0`. -/
theorem fsign_ema (hs : isFinite s = true) (hsign : fsign s = false) (hx : isFinite x = true) (hx0 : 0 ≤ val x)
    (hd : isFinite (fsub x s) = true) (ha : SmoothingConstant a) : fsign (ema s x a) = false := by
  obtain ⟨hfin, -⟩ := exists_factor_increment hs hx hd ha
  obtain ⟨r, hr0, -, hr1, hsum, -⟩ := ema_rounds hs hx hd ha
  refine fsign_fadd hs hfin hsign ?_
  rw [hsum]
  exact add_nonneg (mul_nonneg (sub_nonneg.2 hr1) (val_nonneg_of_fsign hsign)) (mul_nonneg hr0 hx0)

/-- A positive filter stays positive on a non-negative input, the constant being below `1/4`. -/
theorem ema_pos (hs : isFinite s = true) (hs0 : 0 < val s) (hx : isFinite x = true) (hx0 : 0 ≤ val x)
    (hd : isFinite (fsub x s) = true) (ha : SmoothingConstant a) (ha4 : val a < 1 / 4)
    (hfin : isFinite (ema s x a) = true) : 0 < val (ema s x a) := by
  obtain ⟨hinc, -⟩ := exists_factor_increment hs hx hd ha
  obtain ⟨r, hr0, hr4, -, hsum, -⟩ := ema_rounds hs hx hd ha
  refine fadd_pos hs hinc ?_ hfin
  rw [hsum]
  exact add_pos_of_pos_of_nonneg (mul_pos (by linarith) hs0) (mul_nonneg hr0 hx0)

/-- From a filter at zero a step goes to the input times the constant, rounded. -/
theorem ema_between_of_zero {lo hi : ℚ} (hlo : IsValue lo) (hhi : IsValue hi) (hs : isFinite s = true)
    (hs0 : val s = 0) (hx : isFinite x = true) (ha : isFinite a = true) (hlow : lo ≤ val a * val x)
    (hhigh : val a * val x ≤ hi) : Between lo hi (ema s x a) := by
  obtain ⟨hdfin, hdval⟩ := (fsub_rounds_difference hx hs).exact (by rw [hs0, sub_zero]; exact isValue_val hx)
  rw [hs0, sub_zero] at hdval
  have hprod := fmul_rounds_product ha hdfin
  rw [hdval] at hprod
  obtain ⟨hfin, hl, hh⟩ := hprod.between hlo hhi hlow hhigh
  have hsum := fadd_rounds_sum hs hfin
  rw [hs0, zero_add] at hsum
  exact hsum.between hlo hhi hl hh

end

theorem smoothingConstant_of_mem {a : F32} (h : a ∈ [cfgLsa.aAvg, cfgLsa.aS1, cfgLsa.aS2]) : SmoothingConstant a := by
  simp only [List.mem_cons, List.not_mem_nil, or_false] at h
  rcases h with rfl | rfl | rfl
  · exact smoothingConstant_aAvg
  · exact smoothingConstant_aS1
  · exact smoothingConstant_aS2

/-- Settles O35: the interval with the filter's value and its input as ends is one that holds them. -/
theorem smoothingNeverOvershoots : Obligations.SmoothingNeverOvershoots := by
  intro a hmem s x hs hx hd
  have ha := smoothingConstant_of_mem hmem
  refine ⟨fun hle => ?up, fun hle => ?down⟩
  case up =>
    have hval := (fle_iff_val_le hs hx).1 hle
    exact (between_iff_fle hs hx).2
      (ema_between (isValue_val hs) (isValue_val hx) ⟨hs, le_rfl, hval⟩ ⟨hx, hval, le_rfl⟩ hd ha)
  case down =>
    have hval := (fle_iff_val_le hx hs).1 hle
    exact (between_iff_fle hx hs).2
      (ema_between (isValue_val hx) (isValue_val hs) ⟨hs, hval, le_rfl⟩ ⟨hx, le_rfl, hval⟩ hd ha)

/-! ### The decay of the envelope (R110) -/

theorem val_decay : val cfgLsa.decay = 511 / 512 := by
  rw [val_eq_iff_units]
  decide +kernel

theorem magUnits_decay : magUnits cfgLsa.decay = 511 * 2 ^ 140 := by decide +kernel

section
variable {env : F32} (hfin : isFinite env = true) (hsign : fsign env = false)
include hfin hsign

/-- The decayed envelope is between +0 and the envelope. -/
theorem decay_between : Between 0 (val env) (fmul env cfgLsa.decay) := by
  have hpos := val_nonneg_of_fsign hsign
  refine (fmul_rounds_product hfin (by decide)).between isValue_zero (isValue_val hfin) ?_ ?_
  · rw [val_decay]; positivity
  · rw [val_decay]; linarith

theorem fsign_decay : fsign (fmul env cfgLsa.decay) = false := by
  rw [fsign_fmul (isNaN_of_isFinite (decay_between hfin hsign).finite), hsign]
  decide

/-- The decay of a nonzero envelope as one rounding of a fraction of units. -/
theorem decay_eq_rnd32 (hnz : isZero env = false) :
    fmul env cfgLsa.decay = rnd32 false (magUnits env * (511 * 2 ^ 140)) (2 ^ 149) false := by
  rw [fmul_rounds hfin (by decide) hnz (by decide), magUnits_decay, hsign]
  rfl

end

theorem roundQuotient_mul_mul {c : Nat} (hc : 0 < c) (num d : Nat) :
    roundQuotient (num * c) (d * c) = roundQuotient num d := by
  have hgt : d * c < 2 * (num % d * c) ↔ d < 2 * (num % d) := by rw [← mul_assoc, Nat.mul_lt_mul_right hc]
  have heq : 2 * (num % d * c) = d * c ↔ 2 * (num % d) = d := by rw [← mul_assoc, Nat.mul_left_inj hc.ne']
  simp only [roundQuotient, Nat.mul_mod_mul_right, Nat.mul_div_mul_right _ _ hc, hgt, heq]

/-- Below `2^23` units the spacing is one unit. -/
theorem roundUnits_decay_small {n : Nat} (h : n < 2 ^ 23) :
    roundUnits (n * (511 * 2 ^ 140)) (2 ^ 149) = roundQuotient (n * 511) 512 := by
  have hnum : n * (511 * 2 ^ 140) = n * 511 * 2 ^ 140 := (mul_assoc _ _ _).symm
  have hden : 2 ^ 149 = 512 * 2 ^ 140 := by norm_num
  have hquot : n * 511 / 512 < 2 ^ 23 := by omega
  rw [roundUnits_eq, spacingExp, hnum, hden, Nat.mul_div_mul_right _ _ (Nat.two_pow_pos 140), log2_sub_of_lt hquot,
    pow_zero, mul_one, mul_one, roundQuotient_mul_mul (Nat.two_pow_pos 140)]

/-- Up to 256 units a 512th is at most half a unit, and the tie at 256 goes to the even 256. -/
theorem roundUnits_decay_stalls {n : Nat} (h : n ≤ 256) : roundUnits (n * (511 * 2 ^ 140)) (2 ^ 149) = n := by
  rw [roundUnits_decay_small (by omega)]
  rcases h.lt_or_eq with hlt | rfl
  · rw [roundQuotient]
    split <;> omega
  · decide

/-- Above 256 units a 512th is more than half a unit. -/
theorem roundUnits_decay_lowers {n : Nat} (hlo : 256 < n) (hhi : n < 2 ^ 23) :
    roundUnits (n * (511 * 2 ^ 140)) (2 ^ 149) < n := by
  rw [roundUnits_decay_small hhi, roundQuotient]
  split <;> omega

section
variable {env : F32} (hfin : isFinite env = true) (hsign : fsign env = false)
include hfin hsign

theorem decay_stalls (h : magUnits env ≤ 256) : fmul env cfgLsa.decay = env := by
  cases hz : isZero env with
  | true =>
    obtain rfl : env = posZero := (eq_zero_of_isZero hz).resolve_right fun hneg => by
      rw [hneg] at hsign
      exact absurd hsign (by decide)
    decide
  | false =>
    have hround := roundUnits_decay_stalls h
    have hnum : magUnits env * (511 * 2 ^ 140) ≠ 0 := Nat.mul_ne_zero (magUnits_pos hz).ne' (by norm_num)
    have hmax : roundUnits (magUnits env * (511 * 2 ^ 140)) (2 ^ 149) ≤ maxUnits := by
      rw [hround]
      exact magUnits_le_maxUnits hfin
    rw [decay_eq_rnd32 hfin hsign hz, rnd32_finite false false hnum hmax, hround, ← hsign, finiteWord_magUnits]

/-- In the normal range a 512th is more than one place of the fraction, so a smaller word lies between. -/
theorem decay_lowers_normal (h : 2 ^ 23 ≤ magUnits env) : val (fmul env cfgLsa.decay) < val env := by
  obtain hlt | ⟨n, k, hlo, hhi, hmag⟩ := (representable_magUnits env).normalize
  · omega
  have hval : val env = n * 2 ^ k / 2 ^ 149 := by
    rw [val, units_of_fsign_false hsign, hmag]
    push_cast
    rfl
  have hless : (n - 1) * 2 ^ k ≤ maxUnits := le_trans (by rw [hmag]; gcongr; omega) (magUnits_le_maxUnits hfin)
  obtain ⟨hfin', hmag'⟩ := finiteWord_spec false (m := (n - 1) * 2 ^ k) ⟨n - 1, k, by omega, rfl⟩ hless
  have hval' : val (finiteWord false ((n - 1) * 2 ^ k)) = (n - 1) * 2 ^ k / 2 ^ 149 := by
    rw [val, units_of_fsign_false (fsign_finiteWord _ _), hmag']
    push_cast [show 1 ≤ n by omega]
    rfl
  have hn : (2 : ℚ) ^ 23 ≤ n := by exact_mod_cast hlo
  have hunit : (0 : ℚ) < 2 ^ k / 2 ^ 149 := by positivity
  have hbound := (fmul_rounds_product hfin (b := cfgLsa.decay) (by decide)).between isValue_zero (isValue_val hfin')
    (by rw [val_decay, hval]; positivity)
    (by rw [val_decay, hval, hval', mul_div_assoc, mul_div_assoc]; nlinarith only [hn, hunit])
  refine hbound.high.trans_lt ?_
  rw [hval, hval', mul_div_assoc, mul_div_assoc]
  linarith

theorem decay_lowers (h : 256 < magUnits env) : val (fmul env cfgLsa.decay) < val env := by
  rcases lt_or_ge (magUnits env) (2 ^ 23) with hsmall | hnormal
  · have hround := roundUnits_decay_lowers h hsmall
    have hmax := hround.le.trans (magUnits_le_maxUnits hfin)
    have hz : isZero env = false := by
      rw [← Bool.not_eq_true, ← magUnits_eq_zero_iff]
      omega
    have hnum : magUnits env * (511 * 2 ^ 140) ≠ 0 := Nat.mul_ne_zero (magUnits_pos hz).ne' (by norm_num)
    obtain ⟨-, hmag⟩ := finiteWord_spec false (representable_roundUnits _ _) hmax
    rw [decay_eq_rnd32 hfin hsign hz, rnd32_finite false false hnum hmax, val_lt_iff,
      units_of_fsign_false hsign, units_of_fsign_false (fsign_finiteWord _ _), hmag]
    exact_mod_cast hround
  · exact decay_lowers_normal hfin hsign hnormal

/-- A positive envelope decays to a positive one. -/
theorem decay_pos (h : 0 < val env) : 0 < val (fmul env cfgLsa.decay) := by
  rcases le_or_gt (magUnits env) 256 with hsmall | hlarge
  · rwa [decay_stalls hfin hsign hsmall]
  · have hval : val env = magUnits env / 2 ^ 149 := by rw [val, units_of_fsign_false hsign, Int.cast_natCast]
    have hn : (256 : ℚ) < magUnits env := by exact_mod_cast hlarge
    have hle : val env * val cfgLsa.decay ≤ val env := by rw [val_decay]; linarith
    have hunit : (1 : ℚ) / 2 ^ 149 ≤ val env * val cfgLsa.decay := by
      rw [val_decay, hval, div_mul_eq_mul_div]
      exact div_le_div_of_nonneg_right (by linarith) (by positivity)
    have hbound := (fmul_rounds_product hfin (by decide)).between isValue_unit (isValue_val hfin) hunit hle
    exact lt_of_lt_of_le (by positivity) hbound.low

end

/-- A word of sign 0 is above `0x00000100` exactly if its magnitude is above 256 units. -/
theorem lt_magUnits_iff {w : F32} (hsign : fsign w = false) : 256 < magUnits w ↔ 0x100 < w.toNat := by
  have hlt : w.toNat < 2 ^ 31 := by
    rw [fsign_eq, decide_eq_false_iff_not] at hsign
    omega
  have hexp := fexp_eq w
  have hfrac := ffrac_eq w
  rw [magUnits]
  split
  · omega
  · have hge : 2 ^ 23 + ffrac w ≤ (2 ^ 23 + ffrac w) * 2 ^ (fexp w - 1) := Nat.le_mul_of_pos_right _ (by positivity)
    omega

/-- Settles O37: the bound of the word is a bound of its magnitude in units. -/
theorem envelopeDecayStallsOnlyAtSubnormals : Obligations.EnvelopeDecayStallsOnlyAtSubnormals := by
  intro env hfin hsign
  refine ⟨fun h => ?lowers, fun h => ?stalls⟩
  case lowers =>
    rw [flt_iff_val_lt (decay_between hfin hsign).finite hfin]
    exact decay_lowers hfin hsign ((lt_magUnits_iff hsign).2 h)
  case stalls => exact decay_stalls hfin hsign (not_lt.1 (mt (lt_magUnits_iff hsign).1 h.not_gt))

/-! ### The envelope follows peaks (R111) -/

/-- The maximum of two finite words is finite, and has the larger of the two values. -/
theorem fmax_val {a b : F32} (ha : isFinite a = true) (hb : isFinite b = true) :
    isFinite (fmax a b) = true ∧ val (fmax a b) = max (val a) (val b) := by
  rcases fmax_cases a b with ⟨hlt, hmax⟩ | ⟨hnot, hmax⟩
  · rw [hmax, max_eq_left ((flt_iff_val_lt hb ha).1 hlt).le]
    exact ⟨ha, rfl⟩
  · have hle := (fle_iff_val_le ha hb).1 ((fle_iff_not_flt (isNaN_of_isFinite ha) (isNaN_of_isFinite hb)).2 hnot)
    rw [hmax, max_eq_right hle]
    exact ⟨hb, rfl⟩

/-- Settles O36: the decayed envelope has sign 0 and is not above the old one, and the new one is the larger of it and
the smoothed value. -/
theorem envelopeFollowsPeaks : Obligations.EnvelopeFollowsPeaks := by
  intro env s11 hfin hsign hs11 dm env1
  have hdm : Between 0 (val env) dm := decay_between hfin hsign
  have hdmle : fle dm env = true := (fle_iff_val_le hdm.finite hfin).2 hdm.high
  obtain ⟨henv1, -⟩ := fmax_val hs11 hdm.finite
  refine ⟨fsign_fmax (fun _ => fsign_decay hfin hsign) henv1, fle_fmax_of_isFinite hs11 henv1, fun habove => ?peak,
    fun hdecayed => ?decayed⟩
  case peak =>
    rcases fmax_cases s11 dm with ⟨-, hmax⟩ | ⟨-, hmax⟩
    · exact hmax
    · rw [show env1 = dm from hmax] at habove
      have hlt := (flt_iff_val_lt hfin hdm.finite).1 habove
      exact absurd hdm.high hlt.not_ge
  case decayed => rwa [hdecayed]

end Sys2Proof.Proofs
end

section
/-! The compression curve of 41_compress_mix.md section 2: exact below 100, within `2^-20` of the exact-rational reading
everywhere, and so increasing and bounded. -/

namespace Sys2Proof.Proofs

open Sys2Proof Sys2Proof.Machine

/-! ### Fixed-point words -/

/-- A word with the value `n / 2^j`. -/
structure Fixed (n : ℤ) (j : ℕ) (w : F32) : Prop where
  finite : isFinite w = true
  val_eq : val w = n / 2 ^ j

section
variable {n m : ℤ} {j : ℕ} {a b : F32}

/-- A sum of fixed-point words is exact as long as it has 24 bits. -/
theorem Fixed.fadd (ha : Fixed n j a) (hb : Fixed m j b) (hj : j ≤ 149) (h : |n + m| < 2 ^ 24) :
    Fixed (n + m) j (fadd a b) := by
  have hsum : val a + val b = ((n + m : ℤ) : ℚ) / 2 ^ j := by rw [ha.val_eq, hb.val_eq, Int.cast_add, add_div]
  obtain ⟨hfin, hval⟩ := (fadd_rounds_sum ha.finite hb.finite).exact (hsum ▸ isValue_div_pow h hj)
  exact ⟨hfin, hval.trans hsum⟩

/-- So is a product with an integer. -/
theorem Fixed.fmul (ha : Fixed n j a) (hb : Fixed m 0 b) (hj : j ≤ 149) (h : |n * m| < 2 ^ 24) :
    Fixed (n * m) j (fmul a b) := by
  have hprod : val a * val b = ((n * m : ℤ) : ℚ) / 2 ^ j := by
    rw [ha.val_eq, hb.val_eq, pow_zero, div_one, Int.cast_mul, div_mul_eq_mul_div]
  obtain ⟨hfin, hval⟩ := (fmul_rounds_product ha.finite hb.finite).exact (hprod ▸ isValue_div_pow h hj)
  exact ⟨hfin, hval.trans hprod⟩

end

theorem fixed_i2f (s : Sample) : Fixed s.toNat 0 (i2f s) := by
  obtain ⟨hfin, hval⟩ := sampleConversionIsExact.2 s
  exact ⟨hfin, by rw [hval]; simp⟩

/-- A segment with coefficients that are multiples of `2^-j` is evaluated exactly up to a sample `top`, if its terms
have 24 bits there. -/
theorem quadratic_fixed {g : Seg} {x : F32} {A B C X : ℤ} {j : ℕ} (top : ℤ) (hj : j ≤ 149) (ha : Fixed A j g.a)
    (hb : Fixed B j g.b) (hc : Fixed C j g.c) (hx : Fixed X 0 x) (hX : 1 ≤ X) (htop : X ≤ top)
    (hfit : |A| * (top * top) + |B| * top + |C| < 2 ^ 24) :
    Fixed (A * X * X + B * X + C) j (quadratic g x) := by
  have hXX : X * X ≤ top * top := mul_le_mul htop htop (by omega) (by omega)
  have hA : |A * X * X| ≤ |A| * (top * top) := by
    rw [mul_assoc, abs_mul, abs_of_nonneg (mul_self_nonneg X)]
    exact mul_le_mul_of_nonneg_left hXX (abs_nonneg A)
  have hA1 : |A * X| ≤ |A * X * X| := by
    rw [abs_mul (A * X)]
    exact le_mul_of_one_le_right (abs_nonneg _) (hX.trans (le_abs_self X))
  have hB : |B * X| ≤ |B| * top := by
    rw [abs_mul, abs_of_nonneg (by omega : 0 ≤ X)]
    exact mul_le_mul_of_nonneg_left htop (abs_nonneg B)
  have hAB := abs_add_le (A * X * X) (B * X)
  have hABC := abs_add_le (A * X * X + B * X) C
  have hA0 := abs_nonneg (A * X * X)
  have hB0 := abs_nonneg (B * X)
  have hC0 := abs_nonneg C
  exact (((ha.fmul hx hj (by omega)).fmul hx hj (by omega)).fadd (hb.fmul hx hj (by omega)) hj (by omega)).fadd hc hj
    (by omega)

/-! ### The coefficients of this hardware -/

theorem fixed_segA : Fixed (-149) 13 cfgLsa.segA.a ∧ Fixed 4160 13 cfgLsa.segA.b ∧ Fixed 464 13 cfgLsa.segA.c := by
  refine ⟨⟨by decide, ?_⟩, ⟨by decide, ?_⟩, ⟨by decide, ?_⟩⟩ <;> (rw [val_eq_iff_units]; decide +kernel)

theorem fixed_segB :
    Fixed (-57) 18 cfgLsa.segB.a ∧ Fixed 15936 18 cfgLsa.segB.b ∧ Fixed 716800 18 cfgLsa.segB.c := by
  refine ⟨⟨by decide, ?_⟩, ⟨by decide, ?_⟩, ⟨by decide, ?_⟩⟩ <;> (rw [val_eq_iff_units]; decide +kernel)

theorem fixed_segC : Fixed (-145) 26 cfgLsa.segC.a ∧ Fixed 199 15 cfgLsa.segC.b ∧ Fixed 97 4 cfgLsa.segC.c := by
  refine ⟨⟨by decide, ?_⟩, ⟨by decide, ?_⟩, ⟨by decide, ?_⟩⟩ <;> (rw [val_eq_iff_units]; decide +kernel)

/-! ### The exact-rational curve, segment by segment -/

section
variable {s : Sample}

theorem exactCompress_of_segment {cfg : Cfg} {g : Seg} (h : segmentOf cfg s = some g) :
    exactCompress cfg s = val g.a * s.toNat * s.toNat + val g.b * s.toNat + val g.c := by
  rw [exactCompress, h]

theorem exactCompress_below_two (h : s.toNat < 2) : exactCompress cfgLsa s = 0 := by
  rw [exactCompress, segmentOf_below_two cfgLsa h]

theorem exactCompress_segA (hlo : 2 ≤ s.toNat) (hhi : s.toNat < 10) :
    exactCompress cfgLsa s = (-149 * s.toNat * s.toNat + 4160 * s.toNat + 464) / 2 ^ 13 := by
  obtain ⟨ha, hb, hc⟩ := fixed_segA
  rw [exactCompress_of_segment (segmentOf_segA cfgLsa hlo hhi), ha.val_eq, hb.val_eq, hc.val_eq]
  push_cast
  ring

theorem exactCompress_segB (hlo : 10 ≤ s.toNat) (hhi : s.toNat < 100) :
    exactCompress cfgLsa s = (-57 * s.toNat * s.toNat + 15936 * s.toNat + 716800) / 2 ^ 18 := by
  obtain ⟨ha, hb, hc⟩ := fixed_segB
  rw [exactCompress_of_segment (segmentOf_segB cfgLsa hlo hhi), ha.val_eq, hb.val_eq, hc.val_eq]
  push_cast
  ring

theorem exactCompress_segC (hlo : 100 ≤ s.toNat) :
    exactCompress cfgLsa s = -145 / 2 ^ 26 * s.toNat * s.toNat + 199 / 2 ^ 15 * s.toNat + 97 / 2 ^ 4 := by
  obtain ⟨ha, hb, hc⟩ := fixed_segC
  rw [exactCompress_of_segment (segmentOf_segC cfgLsa hlo), ha.val_eq, hb.val_eq, hc.val_eq]
  push_cast
  ring

/-! ### Exact below 100 -/

theorem compress_below_two (h : s.toNat < 2) : compress cfgLsa s = posZero :=
  compress_of_no_segment (segmentOf_below_two cfgLsa h)

theorem compress_exact_below_100 (h : s.toNat < 100) :
    isFinite (compress cfgLsa s) = true ∧ val (compress cfgLsa s) = exactCompress cfgLsa s := by
  rcases lt_or_ge s.toNat 2 with h2 | h2
  · rw [compress_below_two h2, exactCompress_below_two h2]
    exact ⟨by decide, val_posZero⟩
  rcases lt_or_ge s.toNat 10 with h10 | h10
  · obtain ⟨ha, hb, hc⟩ := fixed_segA
    have hfixed := quadratic_fixed 9 (by norm_num) ha hb hc (fixed_i2f s) (by omega) (by omega) (by norm_num)
    rw [compress_of_segment (segmentOf_segA cfgLsa h2 h10), exactCompress_segA h2 h10, hfixed.val_eq]
    exact ⟨hfixed.finite, by push_cast; rfl⟩
  · obtain ⟨ha, hb, hc⟩ := fixed_segB
    have hfixed := quadratic_fixed 99 (by norm_num) ha hb hc (fixed_i2f s) (by omega) (by omega) (by norm_num)
    rw [compress_of_segment (segmentOf_segB cfgLsa h10 h), exactCompress_segB h10 h, hfixed.val_eq]
    exact ⟨hfixed.finite, by push_cast; rfl⟩

end

/-- Settles O31: the first two segments are evaluated in fixed point; the slopes are evaluated. -/
theorem compressionIsExactBelow100 : Obligations.CompressionIsExactBelow100 :=
  ⟨fun _ => compress_exact_below_100, by decide +kernel, by decide +kernel, by decide +kernel⟩

/-! ### The third segment -/

/-- A result below `2^n` is finite and near the exact one. -/
theorem Rounds.near {q : ℚ} {w : F32} (h : Rounds q w) (n : ℕ) (hn : n ≤ 23) (hq : |q| < 2 ^ n) :
    isFinite w = true ∧ |val w - q| ≤ 2 ^ n / 2 ^ 25 := by
  have hpow : |(2 : ℤ) ^ n| < 2 ^ 24 := by
    rw [abs_of_pos (by positivity)]
    exact pow_lt_pow_right₀ (by norm_num) (by omega)
  have hvalue : IsValue (2 ^ n) := by simpa using isValue_intCast hpow
  obtain ⟨hlow, hhigh⟩ := abs_lt.1 hq
  have hfin := (h.between hvalue.neg hvalue hlow.le hhigh.le).finite
  have herr := h.error (z := n) hfin (by exact_mod_cast hq) (by omega)
  refine ⟨hfin, herr.trans_eq ?_⟩
  rw [zpow_sub₀ two_ne_zero, zpow_natCast, div_div]
  norm_cast

/-- The three roundings of the last segment: the square term, the two sums. -/
theorem compress_near_segC {s : Sample} (h : 100 ≤ s.toNat) :
    isFinite (compress cfgLsa s) = true ∧ |val (compress cfgLsa s) - exactCompress cfgLsa s| ≤ 1 / 2 ^ 20 := by
  obtain ⟨ha, hb, hc⟩ := fixed_segC
  have hx := fixed_i2f s
  have hlt := s.isLt
  have hax := ha.fmul hx (by norm_num) (by rw [abs_lt]; omega)
  have hbx := hb.fmul hx (by norm_num) (by rw [abs_lt]; omega)
  have hX0 : (100 : ℚ) ≤ s.toNat := by exact_mod_cast h
  have hX1 : (s.toNat : ℚ) ≤ 1023 := by exact_mod_cast Nat.le_of_lt_succ hlt
  have hsquare : (s.toNat : ℚ) * s.toNat ≤ 1023 * 1023 := mul_le_mul hX1 hX1 (by positivity) (by norm_num)
  have hsquare0 : (0 : ℚ) ≤ (s.toNat : ℚ) * s.toNat := by positivity
  have haxval := hax.val_eq
  have hbxval := hbx.val_eq
  have hxval := hx.val_eq
  have hcval := hc.val_eq
  push_cast at haxval hbxval hxval hcval
  obtain ⟨hfin2, herr2⟩ := (fmul_rounds_product hax.finite hx.finite).near 2 (by norm_num) (by
    rw [haxval, hxval, abs_lt]
    constructor <;> linarith)
  have hq2 : val (fmul cfgLsa.segC.a (i2f s)) * val (i2f s) = -145 / 2 ^ 26 * (s.toNat * s.toNat) := by
    rw [haxval, hxval]
    ring
  rw [hq2, abs_le] at herr2
  obtain ⟨hlow2, hhigh2⟩ := herr2
  obtain ⟨hfin4, herr4⟩ := (fadd_rounds_sum hfin2 hbx.finite).near 3 (by norm_num) (by
    rw [hbxval, abs_lt]
    constructor <;> linarith)
  rw [hbxval, abs_le] at herr4
  obtain ⟨hlow4, hhigh4⟩ := herr4
  obtain ⟨hfin5, herr5⟩ := (fadd_rounds_sum hfin4 hc.finite).near 4 (by norm_num) (by
    rw [hcval, abs_lt]
    constructor <;> linarith)
  rw [hcval, abs_le] at herr5
  obtain ⟨hlow5, hhigh5⟩ := herr5
  rw [compress_of_segment (segmentOf_segC cfgLsa h), exactCompress_segC h, quadratic]
  refine ⟨hfin5, abs_le.2 ⟨?_, ?_⟩⟩ <;> linarith

/-- Everywhere the compressed value is within `2^-20` of the exact-rational one. -/
theorem compress_near (s : Sample) :
    isFinite (compress cfgLsa s) = true ∧ |val (compress cfgLsa s) - exactCompress cfgLsa s| ≤ 1 / 2 ^ 20 := by
  rcases lt_or_ge s.toNat 100 with h | h
  · obtain ⟨hfin, hval⟩ := compress_exact_below_100 h
    refine ⟨hfin, ?_⟩
    rw [hval, sub_self, abs_zero]
    positivity
  · exact compress_near_segC h

/-! ### Increasing, and bounded -/

/-- The exact-rational curve gains at least `1/1024` per sample from 1 on, within each segment and across the bounds. -/
theorem exactCompress_step {s t : Sample} (hst : t.toNat = s.toNat + 1) (hs : 1 ≤ s.toNat) :
    exactCompress cfgLsa s + 1 / 1024 ≤ exactCompress cfgLsa t := by
  have ht := t.isLt
  have hcast : (t.toNat : ℚ) = s.toNat + 1 := by exact_mod_cast hst
  have hbound {n : ℕ} (h : s.toNat ≤ n) : (s.toNat : ℚ) ≤ n := by exact_mod_cast h
  have hvalue {n : ℕ} (h : s.toNat = n) : (s.toNat : ℚ) = n := by exact_mod_cast h
  obtain h | h | h | h | h | h : s.toNat = 1 ∨ (2 ≤ s.toNat ∧ s.toNat ≤ 8) ∨ s.toNat = 9 ∨
      (10 ≤ s.toNat ∧ s.toNat ≤ 98) ∨ s.toNat = 99 ∨ (100 ≤ s.toNat ∧ s.toNat ≤ 1022) := by omega
  · rw [exactCompress_below_two (by omega), exactCompress_segA (by omega) (by omega), hcast, hvalue h]
    norm_num
  · have hle := hbound h.2
    rw [exactCompress_segA (by omega) (by omega), exactCompress_segA (by omega) (by omega), hcast]
    push_cast at hle
    linarith
  · rw [exactCompress_segA (by omega) (by omega), exactCompress_segB (by omega) (by omega), hcast, hvalue h]
    norm_num
  · have hle := hbound h.2
    rw [exactCompress_segB (by omega) (by omega), exactCompress_segB (by omega) (by omega), hcast]
    push_cast at hle
    linarith
  · rw [exactCompress_segB (by omega) (by omega), exactCompress_segC (by omega), hcast, hvalue h]
    norm_num
  · have hle := hbound h.2
    rw [exactCompress_segC (by omega), exactCompress_segC (by omega), hcast]
    push_cast at hle
    linarith

/-- The gain of the exact curve is more than the two errors. -/
theorem compress_lt_step {s t : Sample} (hst : t.toNat = s.toNat + 1) (hs : 1 ≤ s.toNat) :
    val (compress cfgLsa s) < val (compress cfgLsa t) := by
  have hstep := exactCompress_step hst hs
  have herr := (abs_le.1 (compress_near s).2).2
  have herr' := (abs_le.1 (compress_near t).2).1
  linarith

theorem compress_le_step {s t : Sample} (hst : t.toNat = s.toNat + 1) :
    val (compress cfgLsa s) ≤ val (compress cfgLsa t) := by
  rcases Nat.eq_zero_or_pos s.toNat with hzero | hpos
  · rw [compress_below_two (by omega), compress_below_two (by omega)]
  · exact (compress_lt_step hst hpos).le

/-- The compression curve is monotone (41_compress_mix.md section 2). -/
theorem compress_mono {s t : Sample} (h : s.toNat ≤ t.toNat) : val (compress cfgLsa s) ≤ val (compress cfgLsa t) := by
  obtain ⟨k, hk⟩ := Nat.exists_eq_add_of_le h
  induction k generalizing t with
  | zero =>
    obtain rfl : t = s := BitVec.eq_of_toNat_eq hk
    exact le_rfl
  | succ k ih =>
    have hlt := t.isLt
    have hprev : (BitVec.ofNat 10 (s.toNat + k)).toNat = s.toNat + k := by
      rw [BitVec.toNat_ofNat, Nat.mod_eq_of_lt (by omega)]
    exact (ih (by omega) hprev).trans (compress_le_step (by omega))

/-- The top of the curve (96_compress_table.md). -/
theorem compress_top : compress cfgLsa 1023 = 0x4120393E#32 := by decide +kernel

theorem compress_between (s : Sample) : Between 0 (val 0x4120393E#32) (compress cfgLsa s) := by
  have hlt := s.isLt
  have hbottom : val (compress cfgLsa 0) = 0 := by
    rw [compress_below_two (by decide)]
    exact val_posZero
  have htop := compress_mono (s := s) (t := 1023) (Nat.le_of_lt_succ hlt)
  rw [compress_top] at htop
  exact ⟨(compress_near s).1, hbottom ▸ compress_mono (Nat.zero_le _), htop⟩

/-- From a sample of 2 on the compressed value is at least one half. -/
theorem half_le_compress {s : Sample} (h : 2 ≤ s.toNat) : 1 / 2 ≤ val (compress cfgLsa s) := by
  have hmono := compress_mono (s := 2) (t := s) h
  have htwo : (2 : Sample).toNat = 2 := rfl
  rw [(compress_exact_below_100 (s := 2) (by decide)).2, exactCompress_segA (by decide) (by decide), htwo] at hmono
  exact le_trans (by norm_num) hmono

theorem fsign_compress (s : Sample) : fsign (compress cfgLsa s) = false := by
  rcases lt_or_ge s.toNat 2 with h | h
  · rw [compress_below_two h]
    decide
  · exact fsign_of_val_pos (lt_of_lt_of_le (by norm_num) (half_le_compress h))

/-- Settles O30: the curve's steps, and its range. -/
theorem compressionIsIncreasingAndBounded : Obligations.CompressionIsIncreasingAndBounded := by
  refine ⟨fun s hs => ?increasing, fun s => (inPosRange_iff (by decide)).2 ⟨fsign_compress s, compress_between s⟩⟩
  case increasing =>
    have hnext : (s + 1).toNat = s.toNat + 1 := by
      rw [BitVec.toNat_add]
      exact Nat.mod_eq_of_lt (by simp; omega)
    rw [fle_iff_val_le (compress_near _).1 (compress_near _).1, flt_iff_val_lt (compress_near _).1 (compress_near _).1]
    exact ⟨compress_le_step hnext, compress_lt_step hnext⟩

end Sys2Proof.Proofs
end

section
/-! The range of the mixer (41_compress_mix.md section 3): from the bias the weighted bands only add. -/

namespace Sys2Proof.Proofs

open Sys2Proof Sys2Proof.Machine

/-! ### One band after another -/

/-- The pairs of weight row and sample, in ascending band order. -/
def weightedSamples (f : Frame) : List (Rgb F32 × Sample) := List.zip cfgLsa.weight.toList f.toList

/-- One term of R94's sum. -/
def bandTerm (c : ChanId) (p : Rgb F32 × Sample) : F32 := fmul (p.1.get c) (compress cfgLsa p.2)

/-- R94's sum over a list of bands, from the sum of the bands before them. -/
def mixFrom (c : ChanId) (ps : List (Rgb F32 × Sample)) (xt : F32) : F32 :=
  ps.foldl (fun acc p => fadd acc (bandTerm c p)) xt

@[simp] theorem mixFrom_cons (c : ChanId) (p : Rgb F32 × Sample) (ps : List (Rgb F32 × Sample)) (xt : F32) :
    mixFrom c (p :: ps) xt = mixFrom c ps (fadd xt (bandTerm c p)) := rfl

theorem frameInput_eq_mixFrom (f : Frame) (c : ChanId) : frameInput f c = mixFrom c (weightedSamples f) one := rfl

theorem weight_cases {row : Rgb F32} (h : row ∈ cfgLsa.weight.toList) (c : ChanId) :
    row.get c = posZero ∨ row.get c = 0x3F000000#32 ∨ row.get c = one := by
  have hall : cfgLsa.weight.toList.all (fun row => [row.red, row.green, row.blue].all
      fun w => w == posZero || w == 0x3F000000#32 || w == one) = true := by decide
  have hmem : row.get c ∈ [row.red, row.green, row.blue] := by cases c <;> simp
  simpa [or_assoc] using List.all_eq_true.1 (List.all_eq_true.1 hall row h) _ hmem

/-- The weights of this hardware are 0, one half and 1. -/
theorem weight_between {row : Rgb F32} (h : row ∈ cfgLsa.weight.toList) (c : ChanId) :
    Between 0 1 (row.get c) ∧ (isZero (row.get c) = false → 1 / 2 ≤ val (row.get c)) := by
  have hhalf : val 0x3F000000#32 = 1 / 2 := by
    rw [val_eq_iff_units]
    decide +kernel
  rcases weight_cases h c with hw | hw | hw
  · rw [hw]
    exact ⟨⟨by decide, val_posZero.ge, by rw [val_posZero]; norm_num⟩, fun hnot => absurd hnot (by decide)⟩
  · rw [hw]
    exact ⟨⟨by decide, by rw [hhalf]; norm_num, by rw [hhalf]; norm_num⟩, fun _ => hhalf.ge⟩
  · rw [hw]
    exact ⟨⟨by decide, by rw [val_one]; norm_num, val_one.le⟩, fun _ => by rw [val_one]; norm_num⟩

theorem val_compress_top_le : val 0x4120393E#32 ≤ 16 := by
  have h16 : val 0x41800000#32 = 16 := by
    rw [val_eq_iff_units]
    decide +kernel
  rw [← h16, ← fle_iff_val_le (by decide) (by decide)]
  decide +kernel

section
variable {c : ChanId} {p : Rgb F32 × Sample} (hp : p.1 ∈ cfgLsa.weight.toList)
include hp

theorem bandTerm_rounds :
    Rounds (val (p.1.get c) * val (compress cfgLsa p.2)) (bandTerm c p) :=
  fmul_rounds_product (weight_between hp c).1.finite (compress_between p.2).finite

theorem bandTerm_between : Between 0 16 (bandTerm c p) := by
  obtain ⟨-, hw0, hw1⟩ := (weight_between hp c).1
  obtain ⟨-, hl0, hltop⟩ := compress_between p.2
  have h16 : IsValue 16 := isValue_of_eq 16 0 (by norm_num)
  exact (bandTerm_rounds hp).between isValue_zero h16 (mul_nonneg hw0 hl0)
    ((mul_le_of_le_one_left hl0 hw1).trans (hltop.trans val_compress_top_le))

/-- No sample makes a term larger than 1023 does. -/
theorem bandTerm_le_top : val (bandTerm c p) ≤ val (bandTerm c (p.1, 1023)) := by
  have hmono := compress_mono (t := 1023) (Nat.le_of_lt_succ p.2.isLt)
  exact (bandTerm_rounds hp).mono (bandTerm_rounds (p := (p.1, 1023)) hp) (bandTerm_between hp).finite
    (bandTerm_between (p := (p.1, 1023)) hp).finite
    (mul_le_mul_of_nonneg_left hmono (weight_between hp c).1.low)

/-- A band of weight 0, or with a sample below 2, adds a zero. -/
theorem isZero_bandTerm (h : isZero (p.1.get c) = false → p.2.toNat < 2) : isZero (bandTerm c p) = true := by
  have hz : isZero (p.1.get c) = true ∨ isZero (compress cfgLsa p.2) = true := by
    cases hw : isZero (p.1.get c) with
    | true => exact .inl rfl
    | false =>
      rw [compress_below_two (h hw)]
      exact .inr (by decide)
  rw [bandTerm, fmul_zero (weight_between hp c).1.finite (compress_between p.2).finite hz, isZero_zeroOf]

/-- A band of nonzero weight with a sample of at least 2 adds at least one quarter. -/
theorem quarter_le_bandTerm (hw : isZero (p.1.get c) = false) (hs : 2 ≤ p.2.toNat) : 1 / 4 ≤ val (bandTerm c p) := by
  have hquarter : IsValue (1 / 4) := isValue_of_eq 1 2 (by norm_num)
  refine (bandTerm_rounds hp).le_val (bandTerm_between hp).finite hquarter ?_
  calc (1 / 4 : ℚ) = 1 / 2 * (1 / 2) := by norm_num
    _ ≤ _ := mul_le_mul ((weight_between hp c).2 hw) (half_le_compress hs) (by norm_num)
      (weight_between hp c).1.low

/-! ### The sum so far -/

/-- A sum so far of at most `k` sixteens, of which there are few, takes one band more without overflow and does not
fall. -/
theorem addBand_between {xt : F32} {k : ℕ} (hk : k < 1000) (hxt : Between 1 (16 * k) xt) :
    Between (val xt) (16 * (k + 1 : ℕ)) (fadd xt (bandTerm c p)) := by
  obtain ⟨htfin, ht0, ht16⟩ := bandTerm_between (c := c) hp
  have hbound : IsValue (16 * (k + 1 : ℕ)) := isValue_of_eq (16 * (k + 1 : ℕ)) 0 (by simp) (by rw [abs_lt]; omega)
  have hhigh := hxt.high
  refine (fadd_rounds_sum hxt.finite htfin).between (isValue_val hxt.finite) hbound (by linarith) ?_
  push_cast
  linarith

end

section
variable {c : ChanId} {ps : List (Rgb F32 × Sample)} {k : ℕ} {xt : F32}

/-- The sum over any bands is finite and not below the sum it starts from. -/
theorem mixFrom_between (hps : ∀ p ∈ ps, p.1 ∈ cfgLsa.weight.toList) (hk : k + ps.length ≤ 1000)
    (hxt : Between 1 (16 * k) xt) : Between (val xt) (16 * (k + ps.length : ℕ)) (mixFrom c ps xt) := by
  induction ps generalizing k xt with
  | nil => exact ⟨hxt.finite, le_rfl, hxt.high⟩
  | cons p ps ih =>
    obtain ⟨hp, hps⟩ := List.forall_mem_cons.1 hps
    rw [List.length_cons] at hk ⊢
    have hstep := addBand_between (c := c) (p := p) hp (by omega) hxt
    have hlen : k + (ps.length + 1) = k + 1 + ps.length := by omega
    rw [mixFrom_cons, hlen]
    exact (ih hps (by omega) (hstep.mono hxt.low le_rfl)).mono hstep.low le_rfl

/-- Every band at 1023 gives the largest sum. -/
theorem mixFrom_le_top {xt' : F32} (hps : ∀ p ∈ ps, p.1 ∈ cfgLsa.weight.toList) (hk : k + ps.length ≤ 1000)
    (hxt : Between 1 (16 * k) xt) (hxt' : Between 1 (16 * k) xt') (hle : val xt ≤ val xt') :
    val (mixFrom c ps xt) ≤ val (mixFrom c (ps.map fun p => (p.1, 1023)) xt') := by
  induction ps generalizing k xt xt' with
  | nil => exact hle
  | cons p ps ih =>
    obtain ⟨hp, hps⟩ := List.forall_mem_cons.1 hps
    rw [List.length_cons] at hk
    have hstep := addBand_between (c := c) (p := p) hp (by omega) hxt
    have hstep' := addBand_between (c := c) (p := (p.1, 1023)) hp (by omega) hxt'
    have hsum := (fadd_rounds_sum hxt.finite (bandTerm_between (c := c) (p := p) hp).finite).mono
      (fadd_rounds_sum hxt'.finite (bandTerm_between (c := c) (p := (p.1, 1023)) hp).finite) hstep.finite hstep'.finite
      (add_le_add hle (bandTerm_le_top hp))
    exact ih hps (by omega) (hstep.mono hxt.low le_rfl) (hstep'.mono hxt'.low le_rfl) hsum

/-- Bands that add zeros leave the bias as it is. -/
theorem mixFrom_one_of_silent (hps : ∀ p ∈ ps, p.1 ∈ cfgLsa.weight.toList)
    (hsilent : ∀ p ∈ ps, isZero (p.1.get c) = false → p.2.toNat < 2) : mixFrom c ps one = one := by
  induction ps with
  | nil => rfl
  | cons p ps ih =>
    obtain ⟨hp, hps⟩ := List.forall_mem_cons.1 hps
    obtain ⟨hsp, hsps⟩ := List.forall_mem_cons.1 hsilent
    rw [mixFrom_cons, fadd_zero_right (by decide) (by decide) (isZero_bandTerm hp hsp)]
    exact ih hps hsps

/-- One band that adds a quarter shows in the sum: what comes before and after it takes nothing away. -/
theorem one_lt_mixFrom {p : Rgb F32 × Sample} (hps : ∀ p ∈ ps, p.1 ∈ cfgLsa.weight.toList)
    (hk : k + ps.length ≤ 1000) (hxt : Between 1 (16 * k) xt) (hmem : p ∈ ps) (hw : isZero (p.1.get c) = false)
    (hs : 2 ≤ p.2.toNat) : 1 < val (mixFrom c ps xt) := by
  induction ps generalizing k xt with
  | nil => cases hmem
  | cons p' ps ih =>
    obtain ⟨hp', htail⟩ := List.forall_mem_cons.1 hps
    rw [List.length_cons] at hk
    have hstep := addBand_between (c := c) (p := p') hp' (by omega) hxt
    have hrest := hstep.mono hxt.low le_rfl
    rw [mixFrom_cons]
    rcases List.mem_cons.1 hmem with hhere | hlater
    · subst hhere
      have hfive : IsValue (5 / 4) := isValue_of_eq 5 2 (by norm_num)
      have hquarter : 1 / 4 ≤ val (bandTerm c p) := quarter_le_bandTerm hp' hw hs
      have hone := hxt.low
      have hsum : Rounds (val xt + val (bandTerm c p)) (fadd xt (bandTerm c p)) :=
        fadd_rounds_sum hxt.finite (bandTerm_between hp').finite
      have hge := hsum.le_val hstep.finite hfive (by linarith)
      have hlater := mixFrom_between (c := c) htail (by omega) hrest
      calc (1 : ℚ) < 5 / 4 := by norm_num
        _ ≤ val (fadd xt (bandTerm c p)) := hge
        _ ≤ val (mixFrom c ps (fadd xt (bandTerm c p))) := hlater.low
    · exact ih htail (by omega) hrest hlater

end

/-! ### The range of `xt` -/

theorem weight_of_mem_weightedSamples {f : Frame} {p : Rgb F32 × Sample} (h : p ∈ weightedSamples f) :
    p.1 ∈ cfgLsa.weight.toList := (List.of_mem_zip h).1

theorem length_weightedSamples (f : Frame) : (weightedSamples f).length = 7 := rfl

theorem one_between : Between 1 (16 * (1 : ℕ)) one := ⟨by decide, val_one.ge, by rw [val_one]; norm_num⟩

/-- The frame of seven 1023s. -/
def fullFrame : Frame := Bands.map (fun _ => 1023) (frameOf 0 0 0 0 0 0 0)

theorem frameInput_fullFrame (c : ChanId) : frameInput fullFrame c = xmax c := by
  cases c <;> decide +kernel

theorem isFinite_xmax (c : ChanId) : isFinite (xmax c) = true := by cases c <;> decide

theorem weightedSamples_fullFrame (f : Frame) :
    weightedSamples fullFrame = (weightedSamples f).map fun p => (p.1, 1023) := rfl

/-- `1 <= xt <= XMAX` for every frame (R95). -/
theorem frameInput_between (f : Frame) (c : ChanId) : Between 1 (val (xmax c)) (frameInput f c) := by
  have hps := fun p => weight_of_mem_weightedSamples (f := f) (p := p)
  have hk : 1 + (weightedSamples f).length ≤ 1000 := by rw [length_weightedSamples]; omega
  have hlow := mixFrom_between (c := c) hps hk one_between
  have hhigh := mixFrom_le_top (c := c) hps hk one_between one_between le_rfl
  rw [← weightedSamples_fullFrame, ← frameInput_eq_mixFrom, ← frameInput_eq_mixFrom, frameInput_fullFrame] at hhigh
  exact ⟨hlow.finite, val_one ▸ hlow.low, hhigh⟩

/-- Settles O33: the bias is the sum of silent bands, and a band that is not silent adds to it. -/
theorem mixerOutputRange : Obligations.MixerOutputRange := by
  intro f c
  have hps := fun p => weight_of_mem_weightedSamples (f := f) (p := p)
  have hrange := frameInput_between f c
  rw [← val_one] at hrange
  obtain ⟨hlow, hhigh⟩ := (between_iff_fle (by decide) (isFinite_xmax c)).2 hrange
  refine ⟨hlow, hhigh, fun hone p hp hw => ?silent, fun hsilent => mixFrom_one_of_silent hps hsilent⟩
  case silent =>
    by_contra hs
    have hlt := one_lt_mixFrom hps (k := 1) (by rw [length_weightedSamples]; omega) one_between hp hw (not_lt.1 hs)
    rw [← frameInput_eq_mixFrom, show frameInput f c = one from hone, val_one] at hlt
    exact lt_irrefl _ hlt

end Sys2Proof.Proofs
end

section
/-! The gain of 43_envelope_gain.md section 3 on this hardware, and the range of the normalized value (section 4). -/

namespace Sys2Proof.Proofs

open Sys2Proof Sys2Proof.Machine

/-! ### The cutoffs and the slope of this hardware -/

/-- `1/HI`, the largest gain. -/
def topGain (c : ChanId) : F32 := fdiv one (cutHigh cfgLsa c)

/-- The ramp between the cutoffs (R114). -/
def ramp (c : ChanId) (m : F32) : F32 := fmul (fsub m (cutLow cfgLsa c)) (slope cfgLsa c)

theorem cutoffs_finite (c : ChanId) :
    isFinite (cutLow cfgLsa c) = true ∧ isFinite (cutHigh cfgLsa c) = true ∧ isFinite (topGain c) = true := by
  cases c <;> decide +kernel

theorem val_cutLow_pos (c : ChanId) : 0 < val (cutLow cfgLsa c) := by
  rw [← val_posZero, ← flt_iff_val_lt (by decide) (cutoffs_finite c).1]
  exact (cutoffs_ordered c).1

theorem val_cutLow_lt (c : ChanId) : val (cutLow cfgLsa c) < val (cutHigh cfgLsa c) := by
  obtain ⟨hlo, hhi, -⟩ := cutoffs_finite c
  rw [← flt_iff_val_lt hlo hhi]
  exact (cutoffs_ordered c).2

theorem slope_between (c : ChanId) : fsign (slope cfgLsa c) = false ∧ Between 0 1 (slope cfgLsa c) := by
  rw [← val_one, ← inPosRange_iff (by decide)]
  cases c <;> exact ⟨by decide +kernel, by decide +kernel⟩

/-- The two formulas meet at `HI`. -/
theorem ramp_cutHigh (c : ChanId) : ramp c (cutHigh cfgLsa c) = topGain c := by
  cases c <;> decide +kernel

theorem gain_cutLow (c : ChanId) : gain cfgLsa c (cutLow cfgLsa c) = posZero := by
  cases c <;> decide +kernel

/-! ### The ramp -/

section
variable {c : ChanId} {m m' : F32}

/-- The difference to `LO` above it. -/
theorem aboveLow_between (hm : isFinite m = true) (hlow : val (cutLow cfgLsa c) ≤ val m) :
    Between 0 (val m) (fsub m (cutLow cfgLsa c)) := by
  have hpos := val_cutLow_pos c
  exact (fsub_rounds_difference hm (cutoffs_finite c).1).between isValue_zero (isValue_val hm) (by linarith)
    (by linarith)

theorem ramp_rounds (hm : isFinite m = true) (hlow : val (cutLow cfgLsa c) ≤ val m) :
    Rounds (val (fsub m (cutLow cfgLsa c)) * val (slope cfgLsa c)) (ramp c m) :=
  fmul_rounds_product (aboveLow_between hm hlow).finite (slope_between c).2.finite

theorem ramp_between (hm : isFinite m = true) (hlow : val (cutLow cfgLsa c) ≤ val m) :
    Between 0 (val m) (ramp c m) := by
  obtain ⟨-, hd0, hdm⟩ := aboveLow_between hm hlow
  obtain ⟨-, hs0, hs1⟩ := (slope_between c).2
  exact (ramp_rounds hm hlow).between isValue_zero (isValue_val hm) (mul_nonneg hd0 hs0)
    ((mul_le_of_le_one_right hd0 hs1).trans hdm)

theorem ramp_mono (hm : isFinite m = true) (hm' : isFinite m' = true) (hlow : val (cutLow cfgLsa c) ≤ val m)
    (hle : val m ≤ val m') : val (ramp c m) ≤ val (ramp c m') := by
  have hlo := (cutoffs_finite c).1
  have hlow' := hlow.trans hle
  have hdiff := (fsub_rounds_difference hm hlo).mono (fsub_rounds_difference hm' hlo) (aboveLow_between hm hlow).finite
    (aboveLow_between hm' hlow').finite (sub_le_sub_right hle _)
  exact (ramp_rounds hm hlow).mono (ramp_rounds hm' hlow') (ramp_between hm hlow).finite (ramp_between hm' hlow').finite
    (mul_le_mul_of_nonneg_right hdiff (slope_between c).2.low)

theorem fsign_ramp (hm : isFinite m = true) (hlow : val (cutLow cfgLsa c) ≤ val m) : fsign (ramp c m) = false := by
  have hpos := val_cutLow_pos c
  have hsign : fsign (fsub m (cutLow cfgLsa c)) = false := by
    refine fsign_fadd hm (by rw [isFinite_fneg, (cutoffs_finite c).1]) (fsign_of_val_pos (by linarith)) ?_
    rw [val_fneg]
    linarith
  rw [ramp, fsign_fmul (isNaN_of_isFinite (ramp_between hm hlow).finite), hsign, (slope_between c).1]
  rfl

/-- What the tests say of an envelope in the ramp region. -/
theorem ramp_region (hnan : isNaN m = false) (hlow : flt m (cutLow cfgLsa c) = false)
    (hhigh : flt m (cutHigh cfgLsa c) = true) :
    Between (val (cutLow cfgLsa c)) (val (cutHigh cfgLsa c)) m := by
  obtain ⟨hlo, hhi, -⟩ := cutoffs_finite c
  exact (between_iff_fle hlo hhi).1 ⟨fle_of_not_flt hnan (isNaN_of_isFinite hlo) hlow, fle_of_flt hhigh⟩

theorem ramp_le_topGain (hm : isFinite m = true) (hlow : val (cutLow cfgLsa c) ≤ val m)
    (hhigh : val m ≤ val (cutHigh cfgLsa c)) : val (ramp c m) ≤ val (topGain c) := by
  rw [← ramp_cutHigh]
  exact ramp_mono hm (cutoffs_finite c).2.1 hlow hhigh

/-! ### Above `HI` -/

/-- An envelope not below `HI` is +∞, or finite and positive. -/
theorem above_cutHigh_cases (h : fle (cutHigh cfgLsa c) m = true) :
    (isInf m = true ∧ fsign m = false) ∨ (isFinite m = true ∧ val (cutHigh cfgLsa c) ≤ val m) := by
  obtain ⟨hnanHi, hnan⟩ := not_nan_of_fle h
  have hfin := (cutoffs_finite c).2.1
  rcases isFinite_or_isInf_of_not_isNaN hnan with hm | hm
  · exact .inr ⟨hm, (fle_iff_val_le hfin hm).1 h⟩
  · rw [fle_iff_not_flt hnanHi hnan, Bool.eq_false_iff, ne_eq, flt_inf_finite hm hfin, Bool.not_eq_true] at h
    exact .inl ⟨hm, h⟩

theorem reciprocal_of_inf (hinf : isInf m = true) (hsign : fsign m = false) : fdiv one m = posZero := by
  rw [fdiv_finite_inf (by decide) hinf, hsign]
  decide

theorem reciprocal_rounds (hm : isFinite m = true) (hpos : 0 < val m) : Rounds (1 / val m) (fdiv one m) := by
  rw [← val_one]
  exact fdiv_rounds_quotient (by decide) hm hpos.ne'

theorem val_cutHigh_pos (c : ChanId) : 0 < val (cutHigh cfgLsa c) := (val_cutLow_pos c).trans (val_cutLow_lt c)

/-- The reciprocal of a larger number rounds to no more: from `HI` on it is at most `1/HI`. -/
theorem reciprocal_between (hm : isFinite m = true) (hhigh : val (cutHigh cfgLsa c) ≤ val m) :
    Between 0 (val (topGain c)) (fdiv one m) := by
  obtain ⟨-, hhi, htop⟩ := cutoffs_finite c
  have hpos := val_cutHigh_pos c
  have hrounds := reciprocal_rounds hm (hpos.trans_le hhigh)
  have hrounds' : Rounds (1 / val (cutHigh cfgLsa c)) (topGain c) := reciprocal_rounds hhi hpos
  have hle := one_div_le_one_div_of_le hpos hhigh
  have hnonneg : 0 ≤ 1 / val m := one_div_nonneg.2 (hpos.le.trans hhigh)
  have hfin : isFinite (fdiv one m) = true := by
    refine hrounds.finite_iff.2 (le_trans ?_ (hrounds'.finite_iff.1 htop))
    rw [abs_of_nonneg (roundVal_nonneg hnonneg), abs_of_nonneg (roundVal_nonneg (hnonneg.trans hle))]
    exact roundVal_mono hle
  exact ⟨hfin, hrounds.le_val hfin isValue_zero hnonneg, hrounds.mono hrounds' hfin htop hle⟩

theorem gain_above_cutHigh (h : fle (cutHigh cfgLsa c) m = true) : gain cfgLsa c m = fdiv one m := by
  obtain ⟨hlo, hhi, -⟩ := cutoffs_finite c
  obtain ⟨hnanHi, hnan⟩ := not_nan_of_fle h
  have hlow : fle (cutLow cfgLsa c) m = true := fle_trans (fle_of_flt (cutoffs_ordered c).2) h
  have hzero : flt posZero m = true := by
    rw [flt_iff_orderKey (by decide) hnan]
    rw [fle_iff_orderKey (isNaN_of_isFinite hlo) hnan] at hlow
    have hpos := (flt_iff_orderKey (by decide) (isNaN_of_isFinite hlo)).1 (cutoffs_ordered c).1
    exact hpos.trans_le hlow
  refine gain_of_automatic ?_ ((fle_iff_not_flt (isNaN_of_isFinite hlo) hnan).1 hlow)
    ((fle_iff_not_flt hnanHi hnan).1 h)
  simp [fle, hzero]

/-! ### The whole gain -/

/-- Whatever the envelope, NaN apart, the gain is in `[+0, 1/HI]`. -/
theorem gain_between (hnan : isNaN m = false) :
    fsign (gain cfgLsa c m) = false ∧ Between 0 (val (topGain c)) (gain cfgLsa c m) := by
  obtain ⟨-, hhi, htop⟩ := cutoffs_finite c
  have hzero : fsign posZero = false ∧ Between 0 (val (topGain c)) posZero := by
    have hnonneg := (reciprocal_between (c := c) hhi le_rfl).low.trans (reciprocal_between (c := c) hhi le_rfl).high
    exact ⟨by decide, ⟨by decide, val_posZero.ge, by rwa [val_posZero]⟩⟩
  rcases gain_cases cfgLsa c m with ⟨-, hgain⟩ | ⟨-, hlow, hhigh, hgain⟩ | ⟨-, -, hhigh, hgain⟩
  · rwa [hgain]
  · obtain ⟨hm, hlow, hhigh⟩ := ramp_region hnan hlow hhigh
    rw [hgain]
    exact ⟨fsign_ramp hm hlow, (ramp_between hm hlow).finite, (ramp_between hm hlow).low,
      ramp_le_topGain hm hlow hhigh⟩
  · rw [hgain]
    rcases above_cutHigh_cases (fle_of_not_flt hnan (isNaN_of_isFinite hhi) hhigh) with ⟨hinf, hsign⟩ | ⟨hm, hle⟩
    · rwa [reciprocal_of_inf hinf hsign]
    · have hbetween := reciprocal_between hm hle
      have hsign : fsign m = false := fsign_of_val_pos ((val_cutHigh_pos c).trans_le hle)
      refine ⟨?_, hbetween⟩
      rw [fsign_fdiv (isNaN_of_isFinite hbetween.finite), hsign]
      decide

/-- On the ramp the gain does not fall. -/
theorem gain_mono_ramp (hlow : fle (cutLow cfgLsa c) m = true) (hle : fle m m' = true)
    (hhigh : flt m' (cutHigh cfgLsa c) = true) : fle (gain cfgLsa c m) (gain cfgLsa c m') = true := by
  obtain ⟨hlo, hhi, -⟩ := cutoffs_finite c
  obtain ⟨hnan, hnan'⟩ := not_nan_of_fle hle
  have hhigh' := fle_of_flt hhigh
  obtain ⟨hm, hlowv, -⟩ := (between_iff_fle hlo hhi).1 ⟨hlow, fle_trans hle hhigh'⟩
  obtain ⟨hm', hlowv', -⟩ := (between_iff_fle hlo hhi).1 ⟨fle_trans hlow hle, hhigh'⟩
  have hval := (fle_iff_val_le hm hm').1 hle
  have hhighv := (flt_iff_val_lt hm' hhi).1 hhigh
  have hpos := val_cutLow_pos c
  have hramp {u : F32} (hu : isFinite u = true) (hl : val (cutLow cfgLsa c) ≤ val u)
      (hh : val u < val (cutHigh cfgLsa c)) : gain cfgLsa c u = ramp c u := by
    refine gain_of_ramp ?_ ?_ ((flt_iff_val_lt hu hhi).2 hh)
    · rw [Bool.eq_false_iff, ne_eq, fle_iff_val_le hu (by decide), val_posZero]
      linarith
    · rw [Bool.eq_false_iff, ne_eq, flt_iff_val_lt hu hlo]
      linarith
  rw [hramp hm hlowv (hval.trans_lt hhighv), hramp hm' hlowv' hhighv,
    fle_iff_val_le (ramp_between hm hlowv).finite (ramp_between hm' hlowv').finite]
  exact ramp_mono hm hm' hlowv hval

/-- From `HI` on the gain does not rise, and it is +0 at +∞. -/
theorem gain_antitone_above (hhigh : fle (cutHigh cfgLsa c) m = true) (hle : fle m m' = true) :
    fle (gain cfgLsa c m') (gain cfgLsa c m) = true := by
  have hhigh' := fle_trans hhigh hle
  obtain ⟨hnan, -⟩ := not_nan_of_fle hle
  obtain ⟨-, hfin, hnonneg, -⟩ := gain_between (c := c) hnan
  rcases above_cutHigh_cases hhigh' with ⟨hinf, hsign⟩ | ⟨hm', hval'⟩
  · rw [gain_above_cutHigh hhigh', reciprocal_of_inf hinf hsign, fle_iff_val_le (by decide) hfin, val_posZero]
    exact hnonneg
  · obtain ⟨hm, hval, hle'⟩ := (between_iff_fle (cutoffs_finite c).2.1 hm').1 ⟨hhigh, hle⟩
    have hpos := (val_cutHigh_pos c).trans_le hval
    have hrecip := reciprocal_between hm hval
    have hrecip' := reciprocal_between hm' hval'
    rw [gain_above_cutHigh hhigh, gain_above_cutHigh hhigh', fle_iff_val_le hrecip'.finite hrecip.finite]
    exact (reciprocal_rounds hm' (hpos.trans_le hle')).mono (reciprocal_rounds hm hpos) hrecip'.finite hrecip.finite
      (one_div_le_one_div_of_le hpos hle')

end

/-- Settles O40: the boundaries are evaluated, and in each region rounding is monotone. -/
theorem gainRisesThenFalls : Obligations.GainRisesThenFalls := fun c =>
  ⟨gain_cutLow c, ramp_cutHigh c, fun _ _ => gain_mono_ramp, fun _ _ => gain_antitone_above,
    fun _ hnan => (inPosRange_iff (cutoffs_finite c).2.2).2 (gain_between hnan)⟩

/-! ### The normalized value -/

/-- Not too near zero the spacing is a `2^20`th of the magnitude or less. -/
theorem spacing_le_mul {a : ℚ} (h : 1 / 2 ^ 129 ≤ a) : spacing a ≤ a / 2 ^ 20 := by
  have ha : 0 < a := lt_of_lt_of_le (by positivity) h
  have hlog : (2 : ℚ) ^ Int.log 2 a ≤ a := by exact_mod_cast Int.zpow_log_le_self one_lt_two ha
  have hexp : (2 : ℚ) ^ max (Int.log 2 a) (-126) ≤ 8 * a := by
    rcases max_cases (Int.log 2 a) (-126) with ⟨hmax, -⟩ | ⟨hmax, -⟩
    · rw [hmax]
      linarith
    · have hpow : (2 : ℚ) ^ (-126 : ℤ) = 8 * (1 / 2 ^ 129) := by norm_num
      rw [hmax, hpow]
      exact mul_le_mul_of_nonneg_left h (by norm_num)
  rw [spacing, zpow_sub₀ two_ne_zero]
  have h23 : (2 : ℚ) ^ (23 : ℤ) = 8 * 2 ^ 20 := by norm_num
  rw [h23, div_le_div_iff₀ (by positivity) (by positivity)]
  nlinarith only [hexp]

/-- The reciprocal of a finite word times the word is 1 but for the rounding. -/
theorem mul_reciprocal_le {m : F32} (hm : isFinite m = true) (hpos : 0 < val m)
    (hfin : isFinite (fdiv one m) = true) : val m * val (fdiv one m) ≤ 513 / 512 := by
  have hq : 0 < 1 / val m := one_div_pos.2 hpos
  have hmax : val m ≤ 2 ^ 129 := by
    have h := (le_abs_self _).trans (abs_le_maxF_of_isValue (isValue_val hm))
    have hlt : maxF ≤ 2 ^ 129 := by norm_num [maxF]
    exact h.trans hlt
  have hspacing := spacing_le_mul (one_div_le_one_div_of_le hpos hmax)
  have herr := (abs_le.1 (roundedMagnitude_error (1 / val m))).2
  have hval := (reciprocal_rounds hm hpos).val_eq hfin
  rw [roundVal_of_nonneg hq.le] at hval
  have hrel : val (fdiv one m) ≤ (1 + 1 / 2 ^ 20) * (1 / val m) := by linarith
  calc val m * val (fdiv one m) ≤ val m * ((1 + 1 / 2 ^ 20) * (1 / val m)) := mul_le_mul_of_nonneg_left hrel hpos.le
    _ = 1 + 1 / 2 ^ 20 := by field_simp
    _ ≤ 513 / 512 := by norm_num

/-- A finite envelope of value at least 0 times its gain is at most `513/512`. -/
theorem mul_gain_le {c : ChanId} {m : F32} (hm : isFinite m = true) (hm0 : 0 ≤ val m) :
    val m * val (gain cfgLsa c m) ≤ 513 / 512 := by
  obtain ⟨-, hhi, -⟩ := cutoffs_finite c
  have hnan := isNaN_of_isFinite hm
  obtain ⟨-, hgfin, hg0, hgtop⟩ := gain_between (c := c) hnan
  cases hhigh : flt m (cutHigh cfgLsa c) with
  | true =>
    have hle := (flt_iff_val_lt hm hhi).1 hhigh
    have htop : val (cutHigh cfgLsa c) * val (topGain c) ≤ 513 / 512 :=
      mul_reciprocal_le hhi (val_cutHigh_pos c) (cutoffs_finite c).2.2
    exact (mul_le_mul hle.le hgtop hg0 (hm0.trans hle.le)).trans htop
  | false =>
    have hfle := fle_of_not_flt hnan (isNaN_of_isFinite hhi) hhigh
    have hle := (fle_iff_val_le hhi hm).1 hfle
    rw [gain_above_cutHigh hfle] at hgfin ⊢
    exact mul_reciprocal_le hm ((val_cutHigh_pos c).trans_le hle) hgfin

theorem val_maxGain : val cfgLsa.maxGain = 320 := by
  rw [val_eq_iff_units]
  decide +kernel

theorem val_bound321 : val bound321 = 321 := by
  rw [val_eq_iff_units]
  decide +kernel

theorem isValue_321 : IsValue 321 := isValue_of_eq 321 0 (by norm_num)

/-- The normalized value (R115) for a deviation between zero, of either sign, and the envelope. -/
theorem normalized_between {c : ChanId} {p m : F32} (hm : isFinite m = true) (hp : Between 0 (val m) p) :
    Between 0 321 (fmul (fmul p (gain cfgLsa c m)) cfgLsa.maxGain) := by
  obtain ⟨hpfin, hp0, hpm⟩ := hp
  obtain ⟨-, hgfin, hg0, -⟩ := gain_between (c := c) (isNaN_of_isFinite hm)
  have hbound : IsValue (513 / 512) := isValue_of_eq 513 9 (by norm_num)
  obtain ⟨hfin, h0, hle⟩ := (fmul_rounds_product hpfin hgfin).between isValue_zero hbound (mul_nonneg hp0 hg0)
    ((mul_le_mul_of_nonneg_right hpm hg0).trans (mul_gain_le hm (hp0.trans hpm)))
  refine (fmul_rounds_product hfin (by decide)).between isValue_zero isValue_321 ?_ ?_
  · rw [val_maxGain]
    positivity
  · rw [val_maxGain]
    linarith

/-- Settles O41: no factor has the sign bit, and the two roundings stay below 321. -/
theorem normalizedValueIsBounded : Obligations.NormalizedValueIsBounded := by
  intro c p m hm hsign hle
  obtain ⟨-, hp⟩ := (inPosRange_iff hm).1 ⟨hsign, hle⟩
  obtain ⟨hgsign, hgain⟩ := gain_between (c := c) (isNaN_of_isFinite hm)
  have hn := normalized_between (c := c) hm hp
  have hnan := isNaN_of_isFinite hn.finite
  have hnan' : isNaN (fmul p (gain cfgLsa c m)) = false := by
    cases hp' : isNaN (fmul p (gain cfgLsa c m)) with
    | false => rfl
    | true => rw [isNaN_fmul_left _ hp'] at hnan; cases hnan
  refine (inPosRange_iff (by decide)).2 ⟨?_, val_bound321 ▸ hn⟩
  rw [fsign_fmul hnan, fsign_fmul hnan', hsign, hgsign]
  decide

end Sys2Proof.Proofs
end

section
/-! A frame within the register ranges (42_average_smooth.md section 4, 44_output_stage.md section 3): the ranges are
kept, every channel commits, the zero guard does not act, and nothing positive becomes zero. -/

namespace Sys2Proof.Proofs

open Sys2Proof Sys2Proof.Machine

/-! ### The temporaries of a channel step (R142) -/

section
variable (cfg : Cfg) (c : ChanId) (ch : Channel) (xt : F32)

@[simp] theorem temps_avg1 : (temps cfg c ch xt).avg1 = ema ch.avg xt cfg.aAvg := rfl

@[simp] theorem temps_d : (temps cfg c ch xt).d = fsub xt (temps cfg c ch xt).avg1 := rfl

@[simp] theorem temps_s11 : (temps cfg c ch xt).s11 = ema ch.s1 (temps cfg c ch xt).d cfg.aS1 := rfl

end

/-! ### The bounds as rationals -/

theorem val_xmax_between (c : ChanId) : 1 ≤ val (xmax c) ∧ val (xmax c) ≤ 32 := by
  have h32 : val 0x42000000#32 = 32 := by
    rw [val_eq_iff_units]
    decide +kernel
  rw [← val_one, ← h32, ← fle_iff_val_le (by decide) (isFinite_xmax c), ← fle_iff_val_le (isFinite_xmax c) (by decide)]
  cases c <;> decide +kernel

theorem isFinite_dmin (c : ChanId) : isFinite (dmin c) = true := by
  cases c <;> decide +kernel

/-- The least deviation is exact: 1 is a multiple of the spacing around `XMAX`. -/
theorem val_dmin (c : ChanId) : val (dmin c) = 1 - val (xmax c) := by
  have hunits : units (dmin c) = units one - units (xmax c) := by
    cases c <;> decide +kernel
  rw [← val_one, val, val, val, hunits, Int.cast_sub, sub_div]

/-- The difference of two small words is finite. -/
theorem isFinite_fsub_of_small {a b : F32} {lo hi lo' hi' : ℚ} (ha : Between lo hi a) (hb : Between lo' hi' b)
    (hlow : -1000 ≤ lo - hi') (hhigh : hi - lo' ≤ 1000) : isFinite (fsub a b) = true := by
  have hbound : IsValue 1000 := isValue_of_eq 1000 0 (by norm_num)
  obtain ⟨hafin, ha0, ha1⟩ := ha
  obtain ⟨hbfin, hb0, hb1⟩ := hb
  exact ((fsub_rounds_difference hafin hbfin).between hbound.neg hbound (by linarith) (by linarith)).finite

/-! ### The ranges of the registers, by value -/

section
variable {c : ChanId} {ch : Channel} (hch : ChannelBounded c ch)
include hch

theorem avg_between : Between 0 (val (xmax c)) ch.avg :=
  ((inPosRange_iff (isFinite_xmax c)).1 hch.avg_range).2

theorem fsign_avg : fsign ch.avg = false := hch.avg_range.1

theorem env_between : Between 0 (val (xmax c)) ch.env :=
  ((inPosRange_iff (isFinite_xmax c)).1 hch.env_range).2

theorem fsign_env : fsign ch.env = false := hch.env_range.1

theorem s2_between : Between 0 321 ch.s2 := by
  rw [← val_bound321]
  exact ((inPosRange_iff (by decide)).1 hch.s2_range).2

theorem fsign_s2 : fsign ch.s2 = false := hch.s2_range.1

theorem s1_between : Between (1 - val (xmax c)) (val (xmax c)) ch.s1 := by
  rw [← val_dmin]
  exact (between_iff_fle (isFinite_dmin c) (isFinite_xmax c)).1 ⟨hch.s1_low, hch.s1_high⟩

/-- The decayed envelope (R110). -/
theorem dm_between : Between 0 (val ch.env) (fmul ch.env cfgLsa.decay) :=
  decay_between (env_between hch).finite (fsign_env hch)

end

/-- An input from the mixer (R95). -/
abbrev InputBounded (c : ChanId) (xt : F32) : Prop := Between 1 (val (xmax c)) xt

/-! ### The stages, one range each -/

section
variable {c : ChanId} {ch : Channel} {xt : F32} (hch : ChannelBounded c ch) (hxt : InputBounded c xt)
include hch hxt

theorem avg1_distance_finite : isFinite (fsub xt ch.avg) = true := by
  obtain ⟨hx1, hx32⟩ := val_xmax_between c
  exact isFinite_fsub_of_small hxt (avg_between hch) (by linarith) (by linarith)

theorem avg1_between : Between 0 (val (xmax c)) (temps cfgLsa c ch xt).avg1 :=
  ema_between isValue_zero (isValue_val (isFinite_xmax c)) (avg_between hch) (hxt.mono zero_le_one le_rfl)
    (avg1_distance_finite hch hxt) smoothingConstant_aAvg

theorem fsign_avg1 : fsign (temps cfgLsa c ch xt).avg1 = false :=
  fsign_ema (avg_between hch).finite (fsign_avg hch) hxt.finite (zero_le_one.trans hxt.low)
    (avg1_distance_finite hch hxt) smoothingConstant_aAvg

/-- A frame never leaves the average at zero: it starts at 1/256 from there, and stays positive otherwise. -/
theorem avg1_pos : 0 < val (temps cfgLsa c ch xt).avg1 := by
  have havg := (avg_between hch)
  rcases havg.low.eq_or_lt with hzero | hpos
  · have h256 : IsValue (1 / 256) := isValue_of_eq 1 8 (by norm_num)
    have hx := hxt.low
    have hx32 := hxt.high.trans (val_xmax_between c).2
    have hstart := ema_between_of_zero (a := cfgLsa.aAvg) h256 isValue_one havg.finite hzero.symm hxt.finite (by decide)
      (by rw [val_aAvg]; linarith) (by rw [val_aAvg]; linarith)
    exact lt_of_lt_of_le (by norm_num) hstart.low
  · exact ema_pos havg.finite hpos hxt.finite (zero_le_one.trans hxt.low) (avg1_distance_finite hch hxt)
      smoothingConstant_aAvg (by rw [val_aAvg]; norm_num) (avg1_between hch hxt).finite

/-- The deviation of the input from the updated average (R102). -/
theorem d_between : Between (1 - val (xmax c)) (val (xmax c)) (temps cfgLsa c ch xt).d := by
  have havg1 := avg1_between hch hxt
  have hlow := hxt.low
  have hhigh := hxt.high
  have hlow' := havg1.low
  have hhigh' := havg1.high
  refine (fsub_rounds_difference hxt.finite havg1.finite).between ?_ (isValue_val (isFinite_xmax c)) (by linarith)
    (by linarith)
  rw [← val_dmin]
  exact isValue_val (isFinite_dmin c)

theorem s11_between : Between (1 - val (xmax c)) (val (xmax c)) (temps cfgLsa c ch xt).s11 := by
  obtain ⟨hx1, hx32⟩ := val_xmax_between c
  have hd := d_between hch hxt
  have hdist := isFinite_fsub_of_small hd (s1_between hch) (by linarith) (by linarith)
  refine ema_between ?_ (isValue_val (isFinite_xmax c)) (s1_between hch) hd hdist smoothingConstant_aS1
  rw [← val_dmin]
  exact isValue_val (isFinite_dmin c)

theorem env1_eq_max :
    isFinite (temps cfgLsa c ch xt).env1 = true ∧
      val (temps cfgLsa c ch xt).env1 = max (val (temps cfgLsa c ch xt).s11) (val (fmul ch.env cfgLsa.decay)) :=
  fmax_val (s11_between hch hxt).finite (dm_between hch).finite

theorem env1_between : Between 0 (val (xmax c)) (temps cfgLsa c ch xt).env1 := by
  obtain ⟨hfin, hval⟩ := env1_eq_max hch hxt
  have hdm := dm_between hch
  refine ⟨hfin, ?_, ?_⟩
  · rw [hval]
    exact hdm.low.trans (le_max_right _ _)
  · rw [hval]
    exact max_le (s11_between hch hxt).high (hdm.high.trans (env_between hch).high)

theorem fsign_env1 : fsign (temps cfgLsa c ch xt).env1 = false :=
  fsign_fmax (fun _ => fsign_decay (env_between hch).finite (fsign_env hch)) (env1_between hch hxt).finite

/-- The clipped deviation lies between zero and the updated envelope (R112). -/
theorem p_between : Between 0 (val (temps cfgLsa c ch xt).env1) (temps cfgLsa c ch xt).p := by
  have hs11 := s11_between hch hxt
  obtain ⟨-, hval⟩ := env1_eq_max hch hxt
  rw [temps_p]
  rcases clip_cases (temps cfgLsa c ch xt).s11 with ⟨-, hclip⟩ | ⟨hnot, hclip⟩
  · rw [hclip]
    exact ⟨by decide, val_posZero.ge, by rw [val_posZero]; exact (env1_between hch hxt).low⟩
  · rw [Bool.eq_false_iff, ne_eq, flt_iff_val_lt hs11.finite (by decide), val_posZero, not_lt] at hnot
    rw [hclip]
    exact ⟨hs11.finite, hnot, by rw [hval]; exact le_max_left _ _⟩

theorem n_between : Between 0 321 (temps cfgLsa c ch xt).n :=
  normalized_between (env1_between hch hxt).finite (p_between hch hxt)

theorem s21_distance_finite : isFinite (fsub (temps cfgLsa c ch xt).n ch.s2) = true :=
  isFinite_fsub_of_small (n_between hch hxt) (s2_between hch) (by norm_num) (by norm_num)

theorem s21_between : Between 0 321 (temps cfgLsa c ch xt).s21 :=
  ema_between isValue_zero isValue_321 (s2_between hch) (n_between hch hxt) (s21_distance_finite hch hxt)
    smoothingConstant_aS2

theorem fsign_s21 : fsign (temps cfgLsa c ch xt).s21 = false :=
  fsign_ema (s2_between hch).finite (fsign_s2 hch) (n_between hch hxt).finite (n_between hch hxt).low
    (s21_distance_finite hch hxt) smoothingConstant_aS2

/-! ### The commit, and the new registers -/

/-- Within the ranges the non-finite guard does not act (R131). -/
theorem commits_of_bounded : commits (temps cfgLsa c ch xt) = true :=
  (commits_iff _).2 ⟨hxt.finite, (avg1_between hch hxt).finite, (s11_between hch hxt).finite,
    (env1_between hch hxt).finite, (s21_between hch hxt).finite⟩

theorem channelStep_of_bounded :
    channelStep cfgLsa c ch xt =
      { avg := (temps cfgLsa c ch xt).avg1, s1 := (temps cfgLsa c ch xt).s11, env := (temps cfgLsa c ch xt).env1,
        s2 := (temps cfgLsa c ch xt).s21, out := quant (temps cfgLsa c ch xt).s21 } :=
  channelStep_of_commits (commits_of_bounded hch hxt)

theorem channelBounded_channelStep : ChannelBounded c (channelStep cfgLsa c ch xt) := by
  have hs11 := s11_between hch hxt
  rw [← val_dmin] at hs11
  obtain ⟨hlow, hhigh⟩ := (between_iff_fle (isFinite_dmin c) (isFinite_xmax c)).2 hs11
  rw [channelStep_of_bounded hch hxt]
  exact
    { avg_range := (inPosRange_iff (isFinite_xmax c)).2 ⟨fsign_avg1 hch hxt, avg1_between hch hxt⟩
      s1_low := hlow
      s1_high := hhigh
      env_range := (inPosRange_iff (isFinite_xmax c)).2 ⟨fsign_env1 hch hxt, env1_between hch hxt⟩
      s2_range := (inPosRange_iff (by decide)).2 ⟨fsign_s21 hch hxt, val_bound321 ▸ s21_between hch hxt⟩ }

/-! ### What stays positive -/

theorem env1_pos_of_env_pos (h : isPositive ch.env = true) : 0 < val (temps cfgLsa c ch xt).env1 := by
  obtain ⟨-, hval⟩ := env1_eq_max hch hxt
  have henv := (env_between hch).finite
  rw [hval]
  exact (decay_pos henv (fsign_env hch) ((isPositive_iff henv).1 h)).trans_le (le_max_right _ _)

/-- The first frame after reset: the average takes a 256th of the input, so the deviation is at least one half, and a
quarter of it goes into the envelope. -/
theorem env1_pos_of_fresh (havg : ch.avg = posZero) (hs1 : ch.s1 = posZero) :
    0 < val (temps cfgLsa c ch xt).env1 := by
  obtain ⟨-, hval⟩ := env1_eq_max hch hxt
  have hx1 := hxt.low
  have hx32 := hxt.high.trans (val_xmax_between c).2
  have hhalf : IsValue (1 / 2) := isValue_of_eq 1 1 (by norm_num)
  have heighth : IsValue (1 / 8) := isValue_of_eq 1 3 (by norm_num)
  have hthirtyTwo : IsValue 32 := isValue_of_eq 32 0 (by norm_num)
  have havg1 : Between 0 (1 / 2) (temps cfgLsa c ch xt).avg1 := by
    rw [temps_avg1, havg]
    exact ema_between_of_zero isValue_zero hhalf (by decide) val_posZero hxt.finite (by decide)
      (by rw [val_aAvg]; linarith) (by rw [val_aAvg]; linarith)
  obtain ⟨havgfin, havg0, havg2⟩ := havg1
  obtain ⟨hdfin, hd2, hd32⟩ := (fsub_rounds_difference hxt.finite havgfin).between hhalf hthirtyTwo (by linarith)
    (by linarith)
  have hs11 : Between (1 / 8) 32 (temps cfgLsa c ch xt).s11 := by
    rw [temps_s11, temps_d, hs1]
    exact ema_between_of_zero heighth hthirtyTwo (by decide) val_posZero hdfin (by decide)
      (by rw [val_aS1]; linarith) (by rw [val_aS1]; linarith)
  rw [hval]
  exact lt_of_lt_of_le (by norm_num) (hs11.low.trans (le_max_left _ _))

theorem env1_pos (h : Awake ch) : 0 < val (temps cfgLsa c ch xt).env1 := by
  rcases h with ⟨havg, hs1⟩ | henv
  · exact env1_pos_of_fresh hch hxt havg hs1
  · exact env1_pos_of_env_pos hch hxt henv

theorem s21_pos (h : isPositive ch.s2 = true) : 0 < val (temps cfgLsa c ch xt).s21 := by
  have hs2 := (s2_between hch).finite
  have hn := n_between hch hxt
  exact ema_pos hs2 ((isPositive_iff hs2).1 h) hn.finite hn.low (s21_distance_finite hch hxt) smoothingConstant_aS2
    (by rw [val_aS2]; norm_num) (s21_between hch hxt).finite

theorem awake_channelStep (h : Awake ch) : Awake (channelStep cfgLsa c ch xt) := by
  rw [channelStep_of_bounded hch hxt]
  exact .inr ((isPositive_iff (env1_between hch hxt).finite).2 (env1_pos hch hxt h))

end

/-! ### Every step, and every run -/

theorem channelBounded_kept : KeptByFrames ChannelBounded where
  reset := channelBounded_reset
  frame f c _ hch := channelBounded_channelStep hch (frameInput_between f c)

/-- Settles O49: each stage has its range, and a value in a range is finite. -/
theorem everyStepKeepsRangesAndCommits : Obligations.EveryStepKeepsRangesAndCommits :=
  ⟨fun _ _ hs h => channelBounded_kept.step hs h,
    fun s f c hs => commits_of_bounded ((everyChannel_iff _ s).1 hs c) (frameInput_between f c)⟩

theorem boundedAwake_kept : KeptByFrames fun c ch => ChannelBounded c ch ∧ Awake ch where
  reset c := ⟨channelBounded_reset c, .inl ⟨rfl, rfl⟩⟩
  frame f c _ h := ⟨channelBounded_channelStep h.1 (frameInput_between f c),
    awake_channelStep h.1 (frameInput_between f c) h.2⟩

/-- Settles O50: the updated envelope is positive, and so is the one it leaves. -/
theorem zeroGuardNeverActs : Obligations.ZeroGuardNeverActs := by
  refine ⟨fun f c ch hch hawake => ?guard, fun s t hs hawake h => ?kept⟩
  case guard =>
    have hxt := frameInput_between f c
    have hpos := env1_pos hch hxt hawake
    have henv1 := (env1_between hch hxt).finite
    rw [← frameInput, Bool.eq_false_iff, ne_eq, fle_iff_val_le (b := posZero) henv1 (by decide), val_posZero]
    exact hpos.not_ge
  case kept =>
    have hboth : everyChannel (fun c ch => ChannelBounded c ch ∧ Awake ch) s := by
      simp only [StateBounded, everyChannel_iff] at hs hawake ⊢
      exact fun c => ⟨hs c, hawake c⟩
    have hnext := (everyChannel_iff _ t).1 (boundedAwake_kept.step hboth h)
    exact (everyChannel_iff _ t).2 fun c => (hnext c).2

/-- Settles O51: a committed frame writes the average, envelope and filter that the stages leave positive. -/
theorem noFrameZeroesAverageEnvelopeOrOutputFilter : Obligations.NoFrameZeroesAverageEnvelopeOrOutputFilter := by
  intro f c ch hch ch'
  have hxt := frameInput_between f c
  have hstep : ch' = _ := channelStep_of_bounded hch hxt
  rw [hstep]
  exact ⟨(isPositive_iff (avg1_between hch hxt).finite).2 (avg1_pos hch hxt),
    fun henv => (isPositive_iff (env1_between hch hxt).finite).2 (env1_pos_of_env_pos hch hxt henv),
    fun hs2 => (isPositive_iff (s21_between hch hxt).finite).2 (s21_pos hch hxt hs2)⟩

/-- Settles O52: the invariants and the ranges hold at reset and every transaction keeps them; a byte is at most 255. -/
theorem everyReachableOutputIsInRange : Obligations.EveryReachableOutputIsInRange := by
  intro es t h
  have hinv : StateInv t := channelInv_kept.runEvents_reset h
  refine ⟨fun c => ⟨?positive, Nat.le_of_lt_succ (t.outputs.get c).isLt⟩, hinv, channelBounded_kept.runEvents_reset h⟩
  case positive =>
    rw [State.outputs_get]
    exact ((everyChannel_iff _ t).1 hinv c).out_pos

end Sys2Proof.Proofs
end
